-- ==== Sys2Proof/Word.lean ====
section
/-! DEFINITION. The words of GRIN-HC: every quantity is an unsigned value of a stated width (R10). -/

namespace Sys2Proof

/-- A register of the host port and a command word: 32 bits (R41, R90). -/
abbrev Word := BitVec 32

/-- A raw input unit and a decoded output unit, BYTEW = 8 bits (R7). -/
abbrev Byte := BitVec 8

/-- A value of SYMW = 9 bits (R7). The Symbols are the values 0 to 256; 257 to 511 are reserved (R104). -/
abbrev Sym := BitVec 9

/-- A register number of the host port, 0 to 511 (R41). -/
abbrev RegNum := BitVec 9

/-- A bit sequence in stream order, first bit first (R11); `true` is the bit 1. -/
abbrev Bits := List Bool

end Sys2Proof
end

