-- ==== Sys2Proof/Syntax.lean ====
section
/-! DEFINITION. The eleven commands of GRIN-HC, one constructor per row of the opcode table (R94). -/

namespace Sys2Proof

/-- A command (R94). Only LOOKUP carries an operand, a 9-bit symbol (R21, R93). -/
inductive Instr where
  /-- BUILD, OP 1: build the tree from FREQ (R121). -/
  | build
  /-- DESER, OP 2: read a tree from IN (R136). -/
  | deser
  /-- SER, OP 3: write the tree to OUT (R151). -/
  | ser
  /-- LOOKUP sym, OP 4: the path of one symbol (R162). -/
  | lookup (sym : Sym)
  /-- CODEGEN, OP 5: fill the code table (R166). -/
  | codegen
  /-- ENCODE, OP 6: bytes from IN to codes on OUT (R176). -/
  | encode
  /-- DECODE, OP 7: codes from IN to bytes on OUT (R192). -/
  | decode
  /-- WRHDR, OP 8: write the magic to OUT (R206). -/
  | wrhdr
  /-- RDHDR, OP 9: read the magic from IN and check it (R208). -/
  | rdhdr
  /-- CLOSE, OP 10: release both streams and end the session (R216). -/
  | close
  /-- RESET, OP 11: return to the reset state (R218). -/
  | reset
  deriving DecidableEq, Repr

end Sys2Proof
end

