-- ==== Sys2Proof/WellFormed.lean ====
section
/-! DEFINITION. Which commands an encoding can carry. -/

namespace Sys2Proof

/-- A command is well formed when its operand is legal: the symbol of LOOKUP has "legal values 0 to 256" (R93).
The other ten commands have no operand (R91). -/
def Instr.wellFormed : Instr → Bool
  | .lookup sym => decide (sym.toNat ≤ 256)
  | .build | .deser | .ser | .codegen | .encode | .decode | .wrhdr | .rdhdr | .close | .reset => true

end Sys2Proof
end

