-- ==== Sys2Proof/Decode.lean ====
section
/-! DEFINITION. Decoding a command word, total on all 2^32 words (R95), and the encoder of the same tables
(R91, R93, R94). -/

namespace Sys2Proof

/-- Why a word is illegal (R96). -/
inductive DecodeError where
  /-- OP is 0 or 12 to 15. -/
  | reservedOpcode (op : BitVec 4)
  /-- A bit of the ZERO field of its format is 1. -/
  | reservedBitSet (w : Word)
  /-- A LOOKUP whose SYM field is 257 to 511. -/
  | symbolOutOfRange (sym : Sym)
  deriving DecidableEq, Repr

/-- OP, bits 3:0 of a command word (R91, R93). -/
def opField (w : Word) : BitVec 4 := w.extractLsb' 0 4

/-- ZERO of format N, bits 31:4 (R91). -/
def zeroFieldN (w : Word) : BitVec 28 := w.extractLsb' 4 28

/-- SYM of format S, bits 12:4, "taken as an unsigned 9-bit value, not scaled, not shifted, not sign-extended" (R93). -/
def symField (w : Word) : Sym := w.extractLsb' 4 9

/-- ZERO of format S, bits 31:13 (R93). -/
def zeroFieldS (w : Word) : BitVec 19 := w.extractLsb' 13 19

/-- The format N command of an opcode, if there is one (R94). -/
def formatN (op : BitVec 4) : Option Instr :=
  match op.toNat with
  | 1 => some .build
  | 2 => some .deser
  | 3 => some .ser
  | 5 => some .codegen
  | 6 => some .encode
  | 7 => some .decode
  | 8 => some .wrhdr
  | 9 => some .rdhdr
  | 10 => some .close
  | 11 => some .reset
  | _ => none

/-- The decoder of R95; an error is the spec's ILLEGAL. -/
def decode (w : Word) : Except DecodeError Instr :=
  if opField w = 4 then
    if zeroFieldS w ≠ 0 then .error (.reservedBitSet w)
    else if 256 < (symField w).toNat then .error (.symbolOutOfRange (symField w))
    else .ok (.lookup (symField w))
  else
    match formatN (opField w) with
    | none => .error (.reservedOpcode (opField w))
    | some i => if zeroFieldN w ≠ 0 then .error (.reservedBitSet w) else .ok i

/-- OP of a command (R94). -/
def Instr.opcode : Instr → BitVec 4
  | .build => 1
  | .deser => 2
  | .ser => 3
  | .lookup _ => 4
  | .codegen => 5
  | .encode => 6
  | .decode => 7
  | .wrhdr => 8
  | .rdhdr => 9
  | .close => 10
  | .reset => 11

/-- The command word of a command: format S for LOOKUP (R93), format N for every other (R91). -/
def encode (i : Instr) : Word :=
  match i with
  | .lookup sym => 0#19 ++ sym ++ i.opcode
  | .build | .deser | .ser | .codegen | .encode | .decode | .wrhdr | .rdhdr | .close | .reset => 0#28 ++ i.opcode

/-- The `nbits` low bits of `w`, with every bit above them 0: the command word the opcode table numbers. -/
def tableWord (nbits w : Nat) : Word := BitVec.ofNat 32 (w % 2 ^ nbits)

/-- The host's question: what the decoder reads from an instruction of the opcode table. Every command word is
exactly 32 bits (R90). -/
def decodeTableWord (nbits w : Nat) : Option Instr :=
  match decode (tableWord nbits w) with
  | .ok i => some i
  | .error _ => none

end Sys2Proof
end

