-- ==== Sys2Proof/Config.lean ====
section
/-! DEFINITION. What an implementation of GRIN-HC fixes (R7, R8), what it leaves open (R9), and the free values. -/

namespace Sys2Proof

/-- NSYM: 256 byte values and the end-of-stream symbol (R7). -/
def Config.nsym : Nat := 257

/-- EOS, the end-of-stream symbol (R7). -/
def Config.eos : Sym := 256

/-- EOSFREQ, the frequency the builder gives to the end-of-stream leaf (R7). -/
def Config.eosFreq : Nat := 1

/-- MAXINT, the largest number of internal nodes (R8). -/
def Config.maxInt : Nat := 256

/-- The default of the parameter FW, the width of one frequency table entry (R9, D4). -/
def Config.fwDefault : Nat := 32

/-- NFW = FW + 9, the width of a node frequency inside BUILD (R9, R127). -/
def Config.nfw (fw : Nat) : Nat := fw + 9

/-- MAGIC, the 32-bit constant that identifies the format. The spec leaves it OPEN and gives no default
(R9, D3): a constant with no body. It is the value of `Params.magic` at reset and is read nowhere else.
DESIGN CHOICE, log entry 1: safe. -/
opaque Config.magic : Word

/-- PAD, the draw of the padding bits that closing OUT adds (R9, R72, D5): draw number `k` since the machine
was switched on. A free value with no body, so that no proof can rest on zero padding.
DESIGN CHOICE, log entry 2: safe. -/
opaque Config.padBit : Nat → Bool

/-- The parameters of one instance of the hardware that the spec leaves open and says "the model takes each as
an argument" (R9). They are carried by the state so that a claim holds for every value of them and a run with
a given value can be computed; no step changes them. Log entry 3. -/
structure Params where
  /-- MAGIC, 32 bits (R9). -/
  magic : Word
  /-- FW, 1 to 32: the width in bits of one frequency table entry (R9). -/
  fw : Nat
  deriving DecidableEq, Repr

/-- The range of FW: "integer, 1 ≤ FW ≤ 32" (R9). -/
abbrev Params.Ok (p : Params) : Prop := 1 ≤ p.fw ∧ p.fw ≤ 32

/-- The parameters at reset: MAGIC open, FW at its default (R9). -/
def Params.default : Params where
  magic := Config.magic
  fw := Config.fwDefault

end Sys2Proof
end

