-- ==== Sys2Proof/Machine/Table.lean ====
section
/-! DEFINITION. A table of a fixed number of entries: FREQ, CODE and LKBITS are held in one (R26, R34, R35). -/

namespace Sys2Proof.Machine

/-- `n` entries, entry 0 first; the length is part of the value, so no table has a missing entry. -/
structure Table (α : Type) (n : Nat) where
  cells : List α
  len : cells.length = n
  deriving DecidableEq, Repr

/-- The table whose entries are all `a`. -/
def Table.filled {α : Type} (n : Nat) (a : α) : Table α n :=
  ⟨List.replicate n a, List.length_replicate⟩

/-- The table whose entry `i` is `f i`. -/
def Table.tabulate {α : Type} (n : Nat) (f : Fin n → α) : Table α n :=
  ⟨List.ofFn f, List.length_ofFn⟩

/-- Entry `i`. -/
def Table.get {α : Type} {n : Nat} (t : Table α n) (i : Fin n) : α :=
  t.cells[i.val]'(by rw [t.len]; exact i.isLt)

/-- The table with `a` in entry `i` and every other entry as before. -/
def Table.set {α : Type} {n : Nat} (t : Table α n) (i : Fin n) (a : α) : Table α n :=
  ⟨t.cells.set i.val a, by rw [List.length_set]; exact t.len⟩

end Sys2Proof.Machine
end

