-- ==== Sys2Proof/Machine/State.lean ====
section
/-! DEFINITION. The state of GRIN-HC (R20), its two Bit Streams (R65, R69), the host port (R222), and reset (R43). -/

namespace Sys2Proof.Machine

/-- STATE (R23). The value 3 of the 2-bit register is never held, and "a model may leave the value out of the type". -/
inductive Session where
  /-- 0: commands are executed. -/
  | ready
  /-- 1: the session ended with CLOSE. -/
  | closed
  /-- 2: the session ended with a fault. -/
  | fault
  deriving DecidableEq, Repr

/-- The ten faults of the hardware (R231). Taking one is a step to a next state (R236), not a stop of the model. -/
inductive HcFault where
  /-- E_TREE_EOF, raised by DESER: IN ended inside the tree grammar (R143). -/
  | treeEof
  /-- E_SYM_NOT_FOUND, raised by ENCODE: an input byte has no code (R179). -/
  | symNotFound
  /-- E_TRUNCATED, raised by DECODE: IN ended before the EOS leaf was reached (R194). -/
  | truncated
  /-- E_MAGIC, raised by RDHDR: the header differs from MAGIC or is short (R209, R210). -/
  | magicMismatch
  /-- E_TREE_SYM, raised by DESER: a leaf record holds 257 to 511 (R139). -/
  | treeSym
  /-- E_TREE_DUP, raised by DESER: a leaf record repeats a symbol (R140). -/
  | treeDup
  /-- E_TREE_NOEOS, raised by DESER: the tree is complete and has no EOS leaf (R141). -/
  | treeNoEos
  /-- E_TREE_OVF, raised by DESER: a 257th Internal marker was read (R142). -/
  | treeOvf
  /-- E_SEQ, raised by seven commands: tree or table not there, or a tree already there (R234). -/
  | seq
  /-- E_ILLEGAL_CMD, raised by a write of an illegal word to CMD (R233). -/
  | illegalCmd
  deriving DecidableEq, Repr

/-- The tree type of R12: a tagged variant; a Leaf keeps its symbol and its frequency, an Internal node its two
children and no frequency (R30). Frequencies are exact naturals: no sum of the core can overflow NFW bits (R127). -/
inductive HuffTree where
  | leaf (sym : Sym) (freq : Nat)
  | internal (left right : HuffTree)
  deriving DecidableEq, Repr

/-- IN, the input Bit Stream (R65). -/
structure InStream where
  /-- IN.rem: the bits not yet read. -/
  rem : Bits
  /-- IN.open. -/
  opened : Bool
  /-- The unread bits that closing the stream dropped (R72), a record of how much was consumed (R275);
  empty while the stream is open. Log entry 4. -/
  dropped : Bits
  deriving DecidableEq, Repr

/-- OUT, the output Bit Stream (R69). -/
structure OutStream where
  /-- OUT.bits: every bit written so far. -/
  bits : Bits
  /-- OUT.open. -/
  opened : Bool
  /-- OUT.file: the bytes produced by close, "undefined until then" (R69): `none`. -/
  file : Option (List Byte)
  deriving DecidableEq, Repr

/-- A fresh IN, open at its first bit (R65, R261). -/
def InStream.fresh (content : Bits) : InStream := { rem := content, opened := true, dropped := [] }

/-- A fresh OUT, open and empty (R69, R261). -/
def OutStream.fresh : OutStream := { bits := [], opened := true, file := none }

/-- What the outside world does to the core, one at a time (R222, R260): a bus write, a bus read, or the reset pin. -/
inductive HostEvent where
  /-- WREG n, v (R219); a command is `wreg 256 w` (R97). -/
  | wreg (n : RegNum) (v : Word)
  /-- RREG n (R220). -/
  | rreg (n : RegNum)
  /-- Hardware reset, the pin `rst` (R224, R260), between two transactions. -/
  | rst
  deriving DecidableEq, Repr

/-- The state of GRIN-HC, of its environment and of the host port. -/
structure State where
  /-- STATE (R23). -/
  session : Session
  /-- ERR, 4 bits (R24). -/
  err : BitVec 4
  /-- ERRINFO, 32 bits (R25). -/
  errInfo : Word
  /-- FREQ[0] to FREQ[255] (R26): 32-bit registers whose bits above FW read 0 (R41). -/
  freq : Table Word 256
  /-- TREE (R32): nothing, or one tree; TREE_VALID is 1 exactly when it holds one (R20). -/
  tree : Option HuffTree
  /-- NLEAF, 9 bits (R33). -/
  nleaf : BitVec 9
  /-- CODE (R34): nothing, or 257 entries, each absent or a path; CODE_VALID is 1 exactly when it holds a table. -/
  code : Option (Table (Option Bits) 257)
  /-- DEC_DONE (R27). -/
  decDone : Bool
  /-- LK_FOUND (R27). -/
  lkFound : Bool
  /-- LKLEN, 9 bits (R35). -/
  lklen : BitVec 9
  /-- LKBITS[0] to LKBITS[7] (R35). -/
  lkbits : Table Word 8
  /-- IN (R65). -/
  inp : InStream
  /-- OUT (R69). -/
  out : OutStream
  /-- The model's own field: how many padding draws have been made (R72). Log entry 2. -/
  padDraws : Nat
  /-- The environment's: what the host attaches as IN in the coming sessions, the next one first (R261). Log entry 5. -/
  nextInputs : List Bits
  /-- The environment's: the output streams of the earlier sessions, released, oldest first (R218, R261). Log entry 5. -/
  archive : List OutStream
  /-- The host's: the events still to come at the port, the next one first (R222). Log entry 6. -/
  pending : List HostEvent
  /-- The host's: the values RREG returned, oldest first (R220). Log entry 6. -/
  replies : List Word
  /-- The parameters of this instance (R9); no step changes them. Log entry 3. -/
  params : Params
  deriving DecidableEq, Repr

/-- The state after hardware reset (R43): every register and flag 0, no tree, no code table, fresh streams, and no
event at the port yet (R260). -/
def State.reset : State where
  session := .ready
  err := 0
  errInfo := 0
  freq := Table.filled 256 0
  tree := none
  nleaf := 0
  code := none
  decDone := false
  lkFound := false
  lklen := 0
  lkbits := Table.filled 8 0
  inp := InStream.fresh []
  out := OutStream.fresh
  padDraws := 0
  nextInputs := []
  archive := []
  pending := []
  replies := []
  params := Params.default

/-- Why the model stops. GRIN-HC has no stuck state of its own (R248): no state that satisfies the invariant of
Safety.lean reaches one of these. -/
inductive Fault where
  /-- Raised by a command that would use or release a Bit Stream that is already closed, in STATE = READY. The core
  performs no operation on a closed stream, and the spec gives none a meaning (R73). Safe: the model stops. -/
  | closedStream
  /-- Raised by ENCODE when its input has ended and CODE[256] is absent, which the spec excludes: "CODE[256] is never
  absent" (R180). Safe: the model stops. -/
  | noEosCode
  deriving DecidableEq, Repr

/-- Why the model gives a command no meaning. -/
inductive Refusal where
  /-- Raised by an arm of `exec` whose command has no meaning yet; no arm is left that raises it. Safe: the model stops. -/
  | notModelled (mnemonic : String)
  deriving DecidableEq, Repr

end Sys2Proof.Machine
end

