-- ==== Sys2Proof/Machine/Flags.lean ====
section
/-! DEFINITION. The flags (R27), the codes of STATE and ERR (R23, R231), and STATUS (R28). -/

namespace Sys2Proof.Machine

/-- TREE_VALID, 1 exactly when TREE holds a tree (R20). -/
def State.treeValid (s : State) : Bool := s.tree.isSome

/-- CODE_VALID, 1 exactly when CODE holds a table (R20). -/
def State.codeValid (s : State) : Bool := s.code.isSome

/-- The value of STATE, 2 bits (R23). -/
def Session.bits : Session → BitVec 2
  | .ready => 0
  | .closed => 1
  | .fault => 2

/-- The ERR code of a fault (R231). -/
def HcFault.code : HcFault → BitVec 4
  | .treeEof => 1
  | .symNotFound => 2
  | .truncated => 3
  | .magicMismatch => 4
  | .treeSym => 5
  | .treeDup => 6
  | .treeNoEos => 7
  | .treeOvf => 8
  | .seq => 9
  | .illegalCmd => 10

/-- STATUS, from bit 31 down: 20 reserved bits, ERR, 2 reserved bits, LK_FOUND, DEC_DONE, CODE_VALID, TREE_VALID,
STATE (R28). -/
def State.statusWord (s : State) : Word :=
  0#20 ++ s.err ++ 0#2 ++ BitVec.ofBool s.lkFound ++ BitVec.ofBool s.decDone ++ BitVec.ofBool s.codeValid
    ++ BitVec.ofBool s.treeValid ++ s.session.bits

end Sys2Proof.Machine
end

