-- ==== Sys2Proof/Machine/Streams.lean ====
section
/-! DEFINITION. Bit sequences (R11) and the five operations of the Bit Stream contract (R64 to R72). -/

namespace Sys2Proof.Machine

/-- `bitsN(v, n)`: the n low bits of v, most significant first (R11). -/
def bitsN (v : Nat) : Nat → Bits
  | 0 => []
  | n + 1 => v.testBit n :: bitsN v n

/-- One more bit at the low end: `(v << 1) | b` (R68). -/
def shiftIn (v : Nat) (b : Bool) : Nat := 2 * v + b.toNat

/-- `val(q)`: the unsigned integer whose most significant bit is `q[0]` (R11). -/
def val (q : Bits) : Nat := q.foldl shiftIn 0

/-- `IN.readBit()` (R67): `none` is the end-marker END. -/
def InStream.readBit (s : InStream) : Option Bool × InStream :=
  match s.rem with
  | [] => (none, s)
  | b :: r => (some b, { s with rem := r })

/-- The loop of `IN.readBits(n)` (R68): `n` more bits into `v`. -/
def InStream.readLoop : Nat → Nat → InStream → Option Nat × InStream
  | 0, v, s => (some v, s)
  | n + 1, v, s =>
    match s.readBit with
    | (none, s') => (none, s')
    | (some b, s') => InStream.readLoop n (shiftIn v b) s'

/-- `IN.readBits(n)` (R68): an n-bit value, or END with the bits that were left consumed (D24). -/
def InStream.readBits (n : Nat) (s : InStream) : Option (BitVec n) × InStream :=
  match InStream.readLoop n 0 s with
  | (none, s') => (none, s')
  | (some v, s') => (some (BitVec.ofNat n v), s')

/-- `OUT.writeBit(b)` (R70). -/
def OutStream.writeBit (s : OutStream) (b : Bool) : OutStream := { s with bits := s.bits ++ [b] }

/-- `OUT.writeBits(v, n)`: n writes of one bit, from bit n-1 of v down to bit 0 (R71). -/
def OutStream.writeBits (v : Nat) : Nat → OutStream → OutStream
  | 0, s => s
  | n + 1, s => OutStream.writeBits v n (s.writeBit (v.testBit n))

/-- `put(p)` of ENCODE: the bits of a code, first choice first (R176, R178). -/
def OutStream.put (s : OutStream) (p : Bits) : OutStream := p.foldl OutStream.writeBit s

/-- The bits of a byte file in stream order: bit 7 of a byte first (R65, R66). -/
def fileBits (f : List Byte) : Bits := f.flatMap fun b => bitsN b.toNat 8

/-- The bytes of a bit sequence taken 8 bits at a time, first bit as bit 7 (R72). -/
def packBytes : Bits → List Byte
  | b7 :: b6 :: b5 :: b4 :: b3 :: b2 :: b1 :: b0 :: r =>
    BitVec.ofNat 8 (val [b7, b6, b5, b4, b3, b2, b1, b0]) :: packBytes r
  | _ => []

/-- How many padding bits complete the last byte of `len` bits: none, or `8 - len mod 8` (R72). -/
def padLength (len : Nat) : Nat := (8 - len % 8) % 8

/-- The next `n` padding bits after `draws` earlier ones: the draw PAD (R72). -/
def padding (draws n : Nat) : Bits := (List.range n).map fun i => Config.padBit (draws + i)

/-- `IN.close()` (R72): the unread bits are dropped. -/
def InStream.close (s : InStream) : InStream := { rem := [], opened := false, dropped := s.rem }

/-- `OUT.close()` with the padding bits `pad` (R72). -/
def OutStream.close (pad : Bits) (s : OutStream) : OutStream :=
  { s with opened := false, file := some (packBytes (s.bits ++ pad)) }

end Sys2Proof.Machine
end

