-- ==== Sys2Proof/Machine/Trees.lean ====
section
/-! DEFINITION. Functions of a tree: its leaves (R12), its serialization (R100) and the path of a symbol (R161). -/

namespace Sys2Proof.Machine

/-- The leaves in preorder with their frequencies (R12). -/
def HuffTree.leafRecords : HuffTree → List (Sym × Nat)
  | .leaf s f => [(s, f)]
  | .internal l r => l.leafRecords ++ r.leafRecords

/-- `leaves(t)`: the leaf symbols in preorder, left before right (R12). -/
def HuffTree.leaves : HuffTree → List Sym
  | .leaf s _ => [s]
  | .internal l r => l.leaves ++ r.leaves

/-- `nleaf(t)` (R12). -/
def HuffTree.nleaf : HuffTree → Nat
  | .leaf _ _ => 1
  | .internal l r => l.nleaf + r.nleaf

/-- `nint(t)` (R12). -/
def HuffTree.nint : HuffTree → Nat
  | .leaf _ _ => 0
  | .internal l r => 1 + l.nint + r.nint

/-- `depth(t)`: 0 for a leaf, 1 + the deeper child's for an Internal node (R12). -/
def HuffTree.depth : HuffTree → Nat
  | .leaf _ _ => 0
  | .internal l r => 1 + max l.depth r.depth

/-- The tree with every leaf frequency replaced by 0; two trees have the same shape when these are equal (R12). -/
def HuffTree.shape : HuffTree → HuffTree
  | .leaf s _ => .leaf s 0
  | .internal l r => .internal l.shape r.shape

/-- `Ser(t)`, the serialized tree (R100). -/
def HuffTree.ser : HuffTree → Bits
  | .leaf s _ => false :: bitsN s.toNat 9
  | .internal l r => true :: (l.ser ++ r.ser)

/-- `Path(t, s)` (R161): `none` is `absent`; the left subtree is searched first. -/
def HuffTree.path (s : Sym) : HuffTree → Option Bits
  | .leaf x _ => if x = s then some [] else none
  | .internal l r =>
    match l.path s with
    | some p => some (false :: p)
    | none =>
      match r.path s with
      | some q => some (true :: q)
      | none => none

end Sys2Proof.Machine
end

