-- ==== Sys2Proof/Machine/Operands.lean ====
section
/-! DEFINITION. Every operand form: a register number of the host port (R41), a symbol as an index of the code table
(R34), the low FW bits of a count (R219), and the packing of a path into LKBITS (R35). -/

namespace Sys2Proof.Machine

/-- What a register number of the host port names (R41). -/
inductive PortReg where
  | freq (i : Fin 256)
  | cmd
  | status
  | errInfo
  | nleaf
  | lklen
  | lkbits (k : Fin 8)
  | reserved
  deriving DecidableEq, Repr

/-- The register map (R41). -/
def portReg (n : RegNum) : PortReg :=
  if h : n.toNat < 256 then .freq ⟨n.toNat, h⟩
  else if n.toNat = 256 then .cmd
  else if n.toNat = 257 then .status
  else if n.toNat = 258 then .errInfo
  else if n.toNat = 259 then .nleaf
  else if n.toNat = 260 then .lklen
  else if h : n.toNat - 261 < 8 then .lkbits ⟨n.toNat - 261, h⟩
  else .reserved

/-- `v[FW-1:0]` widened with zeros: what a FREQ register keeps of a write (R41, R219). -/
def lowBits (fw : Nat) (v : Word) : Word := BitVec.ofNat 32 (v.toNat % 2 ^ fw)

/-- `CODE[v]` for a raw byte v (R176). -/
def codeOfByte (c : Table (Option Bits) 257) (v : Byte) : Option Bits :=
  c.get ⟨v.toNat, Nat.lt_of_lt_of_le v.isLt (by decide)⟩

/-- `CODE[256]`, the code of EOS (R176). -/
def codeOfEos (c : Table (Option Bits) 257) : Option Bits := c.get ⟨256, by decide⟩

/-- The table `CODE[s] = Path(TREE, s)` for every s in 0 to 256 (R166). -/
def codeTable (t : HuffTree) : Table (Option Bits) 257 :=
  Table.tabulate 257 fun s => t.path (BitVec.ofNat 9 s.val)

/-- At most 32 path elements in one register, the first in bit 31, zero filled (R35). -/
def packWord (q : Bits) : Word := BitVec.ofNat 32 (val (q ++ List.replicate (32 - q.length) false))

/-- A path in LKBITS: element i in bit `31 - (i mod 32)` of `LKBITS[i div 32]`, zero elsewhere (R35). -/
def packPath (p : Bits) : Table Word 8 :=
  Table.tabulate 8 fun k => packWord ((p.drop (32 * k.val)).take 32)

end Sys2Proof.Machine
end

