-- ==== Sys2Proof/Machine/Ops.lean ====
section
/-! DEFINITION. The operations every command shares: the checks made before it acts (R238), releasing the streams (R72),
taking a fault (R236), and going back to the reset state, the only return from a fault (R218, R241). -/

namespace Sys2Proof.Machine

/-- Go on with `k` from the next state; a stop stays a stop. -/
def andThen (o : Host.Outcome State Fault Refusal) (k : State → Host.Outcome State Fault Refusal) :
    Host.Outcome State Fault Refusal :=
  match o with
  | .next s => k s
  | .fault r => .fault r
  | .refused r => .refused r

/-- `if STATE != READY: ignore`: in CLOSED and in FAULT no register, flag or stream changes and no fault is raised (R240). -/
def whenReady (s : State) (k : Host.Outcome State Fault Refusal) : Host.Outcome State Fault Refusal :=
  match s.session with
  | .ready => k
  | .closed | .fault => .next s

/-- Both streams are closed together (R73); releasing them is `IN.close()` and then `OUT.close()` (R72, R216, R236). -/
def closeStreams (s : State) : Host.Outcome State Fault Refusal :=
  if s.inp.opened && s.out.opened then
    .next { s with
      inp := s.inp.close
      out := s.out.close (padding s.padDraws (padLength s.out.bits.length))
      padDraws := s.padDraws + padLength s.out.bits.length }
  else .fault .closedStream

/-- `raise F(info)` (R236): write ERR and ERRINFO, close both streams, and stop in STATE = FAULT. Nothing else is saved
or changed, and control goes nowhere. -/
def raise (f : HcFault) (info : Word) (s : State) : Host.Outcome State Fault Refusal :=
  andThen (closeStreams { s with err := f.code, errInfo := info }) fun u => .next { u with session := .fault }

/-- The sequencing check of SER, LOOKUP, CODEGEN and DECODE: `if TREE_VALID = 0: raise E_SEQ(w)` (R234). -/
def needTree (w : Word) (s : State) (k : HuffTree → Host.Outcome State Fault Refusal) :
    Host.Outcome State Fault Refusal :=
  match s.tree with
  | none => raise .seq w s
  | some t => k t

/-- The sequencing check of BUILD and DESER: `if TREE_VALID = 1: raise E_SEQ(w)` (R234). -/
def needNoTree (w : Word) (s : State) (k : Host.Outcome State Fault Refusal) : Host.Outcome State Fault Refusal :=
  match s.tree with
  | none => k
  | some _ => raise .seq w s

/-- The sequencing check of ENCODE: `if CODE_VALID = 0: raise E_SEQ(w)` (R234). -/
def needCode (w : Word) (s : State) (k : Table (Option Bits) 257 → Host.Outcome State Fault Refusal) :
    Host.Outcome State Fault Refusal :=
  match s.code with
  | none => raise .seq w s
  | some c => k c

/-- The command is about to read IN; no meaning is given to a read of a closed stream (R73). -/
def usingIn (s : State) (k : Host.Outcome State Fault Refusal) : Host.Outcome State Fault Refusal :=
  if s.inp.opened then k else .fault .closedStream

/-- The command is about to write OUT; no meaning is given to a write to a closed stream (R73). -/
def usingOut (s : State) (k : Host.Outcome State Fault Refusal) : Host.Outcome State Fault Refusal :=
  if s.out.opened then k else .fault .closedStream

/-- A new session: every register and flag at its reset value (R43), and a fresh pair of streams attached by the
environment (R261). The parameters, the host's side of the port and the count of padding draws are not the core's and
stay; the released OUT goes to the environment's archive. -/
def freshSession (s : State) : State :=
  { State.reset with
    inp := InStream.fresh (s.nextInputs.headD [])
    padDraws := s.padDraws
    nextInputs := s.nextInputs.tail
    archive := s.archive ++ [s.out]
    pending := s.pending
    replies := s.replies
    params := s.params }

/-- Back to the reset state, from any STATE; the streams of an abandoned session are closed first (R218, R260, R261). -/
def resetCore (s : State) : Host.Outcome State Fault Refusal :=
  match s.session with
  | .ready => andThen (closeStreams s) fun u => .next (freshSession u)
  | .closed | .fault => .next (freshSession s)

end Sys2Proof.Machine
end

