-- ==== Sys2Proof/Machine/Build.lean ====
section
/-! DEFINITION. BUILD, the tree builder (R120 to R134). -/

namespace Sys2Proof.Machine

/-- An entry of BUILD's queue: `(freq, seq, subtree)` (R37). -/
structure Entry where
  freq : Nat
  seq : Nat
  tree : HuffTree
  deriving DecidableEq, Repr

/-- `(freq, seq)` of `a` is lexicographically below that of `b`: lowest frequency first, then first inserted (R124). -/
def Entry.before (a b : Entry) : Bool := a.freq < b.freq || (a.freq == b.freq && a.seq < b.seq)

/-- `extract_min` of the queue that holds `e` and `q`: the least entry and what is left (R124). The order in which the
rest is held means nothing. -/
def extractMin (e : Entry) : List Entry → Entry × List Entry
  | [] => (e, [])
  | x :: q =>
    if x.before e then
      match extractMin x q with
      | (m, r) => (m, e :: r)
    else
      match extractMin e q with
      | (m, r) => (m, x :: r)

/-- The leaves of the FREQ entries from symbol `s` on that are not 0, in ascending order, each with the next sequence
number (R122). -/
def byteLeaves : Nat → Nat → List Word → List Entry
  | _, _, [] => []
  | s, seq, c :: cs =>
    if c = 0 then byteLeaves (s + 1) seq cs
    else { freq := c.toNat, seq := seq, tree := .leaf (BitVec.ofNat 9 s) c.toNat } :: byteLeaves (s + 1) (seq + 1) cs

/-- The entry of EOS, inserted after the byte leaves (R123). -/
def eosEntry (seq : Nat) : Entry :=
  { freq := Config.eosFreq, seq := seq, tree := .leaf Config.eos Config.eosFreq }

/-- The merge step: the entry removed first is the left child, the one removed second the right (R125). -/
def Entry.merge (a b : Entry) (seq : Nat) : Entry :=
  { freq := a.freq + b.freq, seq := seq, tree := .internal a.tree b.tree }

/-- `while size(Q) > 1` (R125, R126) on the queue that holds `e` and `q`; one entry alone is the root. Each round lowers
the size by one, so `fuel` = the size is never used up. -/
def mergeAll : Nat → Nat → Entry → List Entry → Entry
  | 0, _, e, _ => e
  | fuel + 1, seq, e, q =>
    match extractMin e q with
    | (a, []) => a
    | (a, y :: ys) =>
      match extractMin y ys with
      | (b, r) => mergeAll fuel (seq + 1) (a.merge b seq) r

/-- The root entry BUILD makes of a frequency table (R121). -/
def buildRoot (freq : Table Word 256) : Entry :=
  let leaves := byteLeaves 0 0 freq.cells
  let n := leaves.length
  mergeAll (n + 1) (n + 1) (eosEntry n) leaves

/-- `nl`, the size of the queue before the first merge (R121). -/
def buildLeafCount (freq : Table Word 256) : Nat := (byteLeaves 0 0 freq.cells).length + 1

/-- BUILD (R121). -/
def execBuild (s : State) : Host.Outcome State Fault Refusal :=
  whenReady s <| needNoTree (encode .build) s <|
    .next { s with
      tree := some (buildRoot s.freq).tree
      nleaf := BitVec.ofNat 9 (buildLeafCount s.freq) }

end Sys2Proof.Machine
end

