-- ==== Sys2Proof/Machine/Codes.lean ====
section
/-! DEFINITION. LOOKUP and CODEGEN, path lookup and the code table generator (R160 to R170). -/

namespace Sys2Proof.Machine

/-- LOOKUP sym (R162): "not found" is a result, not a fault. -/
def execLookup (sym : Sym) (s : State) : Host.Outcome State Fault Refusal :=
  whenReady s <| needTree (encode (.lookup sym)) s fun t =>
    match t.path sym with
    | none => .next { s with lkFound := false, lklen := 0, lkbits := Table.filled 8 0 }
    | some p => .next { s with lkFound := true, lklen := BitVec.ofNat 9 p.length, lkbits := packPath p }

/-- CODEGEN (R166). -/
def execCodegen (s : State) : Host.Outcome State Fault Refusal :=
  whenReady s <| needTree (encode .codegen) s fun t => .next { s with code := some (codeTable t) }

end Sys2Proof.Machine
end

