-- ==== Sys2Proof/Machine/DecodeEngine.lean ====
section
/-! DEFINITION. DECODE, the decode engine: the state machine of R191 to R197, one pass of its loop as one micro-step (R204). -/

namespace Sys2Proof.Machine

/-- The two children of an Internal node: "at the top of the loop CUR is always an Internal node" (R193), so CUR is held
as its children. -/
structure Children where
  left : HuffTree
  right : HuffTree
  deriving DecidableEq, Repr

/-- The configuration of the state TRAVERSING (R191, R204): CUR and the two streams. -/
structure DecodeConfig where
  cur : Children
  inp : InStream
  out : OutStream
  deriving DecidableEq, Repr

/-- The two ways out of TRAVERSING, with the streams as the machine left them. -/
inductive DecodeEnd where
  /-- The EOS leaf: the machine is in DONE (R193). -/
  | finished (inp : InStream) (out : OutStream)
  /-- IN ended in TRAVERSING (R194). -/
  | truncated (inp : InStream) (out : OutStream)
  deriving DecidableEq, Repr

/-- The outcomes of one micro-step: the next configuration, or a way out (R204). -/
inductive DecodeStep where
  | more (c : DecodeConfig)
  | ended (e : DecodeEnd)
  deriving DecidableEq, Repr

/-- One pass of the loop of R192: read one bit, move, and at a leaf stop or emit and go back to the root (R193). -/
def decodeStep (root : Children) (c : DecodeConfig) : DecodeStep :=
  match c.inp.readBit with
  | (none, r) => .ended (.truncated r c.out)
  | (some b, r) =>
    match (if b then c.cur.right else c.cur.left) with
    | .internal left right => .more { c with cur := ⟨left, right⟩, inp := r }
    | .leaf x _ =>
      if x = Config.eos then .ended (.finished r c.out)
      else .more { cur := root, inp := r, out := OutStream.writeBits x.toNat 8 c.out }

/-- Micro-steps until the machine leaves TRAVERSING. Each consumes one bit (R197), so `fuel` above the number of bits
left is never used up. -/
def decodeRun (root : Children) : Nat → DecodeConfig → DecodeEnd
  | 0, c => .truncated c.inp c.out
  | fuel + 1, c =>
    match decodeStep root c with
    | .more c' => decodeRun root fuel c'
    | .ended e => e

/-- DECODE (R192). -/
def execDecode (s : State) : Host.Outcome State Fault Refusal :=
  whenReady s <| needTree (encode .decode) s fun t =>
    match t with
    | .leaf _ _ => .next { s with decDone := true }
    | .internal left right => usingIn s <| usingOut s <|
      match decodeRun ⟨left, right⟩ (s.inp.rem.length + 1) { cur := ⟨left, right⟩, inp := s.inp, out := s.out } with
      | .finished r o => .next { s with inp := r, out := o, decDone := true }
      | .truncated r o => raise .truncated 0 { s with inp := r, out := o, decDone := false }

end Sys2Proof.Machine
end

