-- ==== Sys2Proof/Machine/Deserialize.lean ====
section
/-! DEFINITION. DESER, the tree deserializer (R135 to R149). -/

namespace Sys2Proof.Machine

/-- DESER's working state (R38): the stream, the Internal markers read `ni`, the leaves read `nl`, and the symbols SEEN. -/
structure ParseState where
  inp : InStream
  ni : Nat
  nl : Nat
  seen : List Sym
  deriving DecidableEq, Repr

/-- A fault met while reading the tree, with the working state at that point (R237). -/
structure ParseFault where
  code : HcFault
  info : Word
  state : ParseState
  deriving DecidableEq, Repr

/-- A leaf record after its marker 0: nine bits, and the checks in the order of R136 (R137, R139, R140, R143). -/
def parseLeaf (d : ParseState) : Except ParseFault (HuffTree × ParseState) :=
  match d.inp.readBits 9 with
  | (none, r) => .error ⟨.treeEof, 0, { d with inp := r }⟩
  | (some v, r) =>
    if 256 < v.toNat then .error ⟨.treeSym, v.setWidth 32, { d with inp := r }⟩
    else if v ∈ d.seen then .error ⟨.treeDup, v.setWidth 32, { d with inp := r }⟩
    else .ok (.leaf v 0, { d with inp := r, nl := d.nl + 1, seen := v :: d.seen })

/-- `node()`, the recursive descent of R136. Every call reads a bit, so `fuel` above the number of bits left is never
used up. -/
def parseNode : Nat → ParseState → Except ParseFault (HuffTree × ParseState)
  | 0, d => .error ⟨.treeEof, 0, d⟩
  | fuel + 1, d =>
    match d.inp.readBit with
    | (none, r) => .error ⟨.treeEof, 0, { d with inp := r }⟩
    | (some false, r) => parseLeaf { d with inp := r }
    | (some true, r) =>
      if d.ni = Config.maxInt then .error ⟨.treeOvf, 0, { d with inp := r }⟩
      else
        match parseNode fuel { d with inp := r, ni := d.ni + 1 } with
        | .error e => .error e
        | .ok (left, d₁) =>
          match parseNode fuel d₁ with
          | .error e => .error e
          | .ok (right, d₂) => .ok (.internal left right, d₂)

/-- The reading of a whole tree from a stream: counters at 0 and nothing seen (R136). -/
def parseTree (inp : InStream) : Except ParseFault (HuffTree × ParseState) :=
  parseNode (inp.rem.length + 1) { inp := inp, ni := 0, nl := 0, seen := [] }

/-- DESER (R136). -/
def execDeser (s : State) : Host.Outcome State Fault Refusal :=
  whenReady s <| needNoTree (encode .deser) s <| usingIn s <|
    match parseTree s.inp with
    | .error e => raise e.code e.info { s with inp := e.state.inp }
    | .ok (t, d) =>
      if Config.eos ∈ d.seen then
        .next { s with inp := d.inp, tree := some t, nleaf := BitVec.ofNat 9 d.nl }
      else raise .treeNoEos 0 { s with inp := d.inp }

end Sys2Proof.Machine
end

