-- ==== Sys2Proof/Machine/EncodeEngine.lean ====
section
/-! DEFINITION. ENCODE, the encode engine (R175 to R186). -/

namespace Sys2Proof.Machine

/-- How the byte loop of ENCODE ends, with the streams as it left them. -/
inductive EncodeEnd where
  /-- IN is exhausted and the terminator is written (R180). -/
  | finished (inp : InStream) (out : OutStream)
  /-- A byte without a code was read (R179). -/
  | notFound (v : Byte) (inp : InStream) (out : OutStream)
  /-- IN is exhausted and CODE[256] is absent, which R180 excludes. -/
  | noTerminator
  deriving DecidableEq, Repr

/-- The end of the input: `put(CODE[256])` and stop (R180). -/
def encodeFinish (c : Table (Option Bits) 257) (inp : InStream) (out : OutStream) : EncodeEnd :=
  match codeOfEos c with
  | none => .noTerminator
  | some p => .finished inp (out.put p)

/-- The loop of R176. Each pass reads eight bits or ends, so `fuel` above the number of bits left is never used up. -/
def encodeLoop (c : Table (Option Bits) 257) : Nat → InStream → OutStream → EncodeEnd
  | 0, inp, out => encodeFinish c inp out
  | fuel + 1, inp, out =>
    match inp.readBits 8 with
    | (none, r) => encodeFinish c r out
    | (some v, r) =>
      match codeOfByte c v with
      | none => .notFound v r out
      | some p => encodeLoop c fuel r (out.put p)

/-- ENCODE (R176). -/
def execEncode (s : State) : Host.Outcome State Fault Refusal :=
  whenReady s <| needCode (encode .encode) s fun c => usingIn s <| usingOut s <|
    match encodeLoop c (s.inp.rem.length + 1) s.inp s.out with
    | .finished r o => .next { s with inp := r, out := o }
    | .notFound v r o => raise .symNotFound (v.setWidth 32) { s with inp := r, out := o }
    | .noTerminator => .fault .noEosCode

end Sys2Proof.Machine
end

