-- ==== Sys2Proof/Machine/Header.lean ====
section
/-! DEFINITION. WRHDR and RDHDR, the format header (R205 to R212). -/

namespace Sys2Proof.Machine

/-- WRHDR (R206). -/
def execWrhdr (s : State) : Host.Outcome State Fault Refusal :=
  whenReady s <| usingOut s <| .next { s with out := OutStream.writeBits s.params.magic.toNat 32 s.out }

/-- RDHDR (R208): a mismatch records the value read (R209), a short input 0 (R210). -/
def execRdhdr (s : State) : Host.Outcome State Fault Refusal :=
  whenReady s <| usingIn s <|
    match s.inp.readBits 32 with
    | (none, r) => raise .magicMismatch 0 { s with inp := r }
    | (some v, r) =>
      if v = s.params.magic then .next { s with inp := r }
      else raise .magicMismatch v { s with inp := r }

end Sys2Proof.Machine
end

