-- ==== Sys2Proof/Machine/Serialize.lean ====
section
/-! DEFINITION. SER, the tree serializer (R150 to R157). -/

namespace Sys2Proof.Machine

/-- `emit(t)` (R151): a node's marker before its children, a leaf's symbol in nine bits. -/
def emitTree : HuffTree → OutStream → OutStream
  | .leaf s _, o => OutStream.writeBits s.toNat 9 (o.writeBit false)
  | .internal l r, o => emitTree r (emitTree l (o.writeBit true))

/-- SER (R151). -/
def execSer (s : State) : Host.Outcome State Fault Refusal :=
  whenReady s <| needTree (encode .ser) s fun t => usingOut s <|
    .next { s with out := emitTree t s.out }

end Sys2Proof.Machine
end

