-- ==== Sys2Proof/Machine/System.lean ====
section
/-! DEFINITION. CLOSE and RESET, the commands that end and restart a session (R215 to R218). -/

namespace Sys2Proof.Machine

/-- CLOSE (R216): release both streams; no flag changes. -/
def execClose (s : State) : Host.Outcome State Fault Refusal :=
  whenReady s <| andThen (closeStreams s) fun u => .next { u with session := .closed }

/-- RESET (R218), accepted in every STATE. -/
def execReset (s : State) : Host.Outcome State Fault Refusal := resetCore s

end Sys2Proof.Machine
end

