-- ==== Sys2Proof/Machine/Dispatch.lean ====
section
/-! DEFINITION. What a command does, one arm per constructor. -/

namespace Sys2Proof.Machine

/-- The command `i` issued in the state `s`. -/
def exec (i : Instr) (s : State) : Host.Outcome State Fault Refusal :=
  match i with
  | .build => Sys2Proof.Machine.execBuild s
  | .deser => Sys2Proof.Machine.execDeser s
  | .ser => Sys2Proof.Machine.execSer s
  | .lookup sym => Sys2Proof.Machine.execLookup sym s
  | .codegen => Sys2Proof.Machine.execCodegen s
  | .encode => Sys2Proof.Machine.execEncode s
  | .decode => Sys2Proof.Machine.execDecode s
  | .wrhdr => Sys2Proof.Machine.execWrhdr s
  | .rdhdr => Sys2Proof.Machine.execRdhdr s
  | .close => Sys2Proof.Machine.execClose s
  | .reset => Sys2Proof.Machine.execReset s

end Sys2Proof.Machine
end

