-- ==== Sys2Proof/Machine/Port.lean ====
section
/-! DEFINITION. The host port: WREG (R219), RREG (R220), and the reset pin (R260). -/

namespace Sys2Proof.Machine

/-- A write of the word `w` to CMD (R29, R219, R238): a legal word does its command; an illegal one is ignored after the
session has ended (R240) and takes E_ILLEGAL_CMD while it runs (R233). -/
def writeCmd (w : Word) (s : State) : Host.Outcome State Fault Refusal :=
  match decode w with
  | .ok i => exec i s
  | .error _ => whenReady s <| raise .illegalCmd w s

/-- A write of `v` to FREQ[i]: kept, in its low FW bits, while STATE = READY (R26, R219). -/
def writeFreq (i : Fin 256) (v : Word) (s : State) : Host.Outcome State Fault Refusal :=
  whenReady s <| .next { s with freq := s.freq.set i (lowBits s.params.fw v) }

/-- WREG n, v (R219); writes to read-only and reserved numbers are ignored (R42). -/
def busWrite (n : RegNum) (v : Word) (s : State) : Host.Outcome State Fault Refusal :=
  match portReg n with
  | .cmd => writeCmd v s
  | .freq i => writeFreq i v s
  | .status | .errInfo | .nleaf | .lklen | .lkbits _ | .reserved => .next s

/-- The value RREG n returns (R220). -/
def readReg (n : RegNum) (s : State) : Word :=
  match portReg n with
  | .freq i => s.freq.get i
  | .cmd => 0
  | .status => s.statusWord
  | .errInfo => s.errInfo
  | .nleaf => s.nleaf.setWidth 32
  | .lklen => s.lklen.setWidth 32
  | .lkbits k => s.lkbits.get k
  | .reserved => 0

/-- RREG n (R220): the value goes to the host and the core does not change. -/
def busRead (n : RegNum) (s : State) : Host.Outcome State Fault Refusal :=
  .next { s with replies := s.replies ++ [readReg n s] }

/-- One event at the host port, run to its end (R222). -/
def transact (e : HostEvent) (s : State) : Host.Outcome State Fault Refusal :=
  match e with
  | .wreg n v => busWrite n v s
  | .rreg n => busRead n s
  | .rst => resetCore s

/-- The register number of CMD (R41). -/
def cmdReg : RegNum := 256

/-- The host about to write the command word `w` to CMD before anything else it has pending (R97). -/
def issueWord (w : Word) (s : State) : State := { s with pending := .wreg cmdReg w :: s.pending }

end Sys2Proof.Machine
end

