-- ==== Sys2Proof/Machine/Step.lean ====
section
/-! DEFINITION. One step: the next event at the host port, or waiting for one (R222, R260). -/

namespace Sys2Proof.Machine

/-- One step. With no event at the port "the core waits for the first bus transaction" (R260). -/
def step (s : State) : Host.Outcome State Fault Refusal :=
  match s.pending with
  | [] => .next s
  | e :: rest => transact e { s with pending := rest }

/-- `s` with the opcode table's instruction `w` at the port as the next command. -/
def State.withFetchWord (s : State) (nbits w : Nat) : State := issueWord (tableWord nbits w) s

end Sys2Proof.Machine
end

