-- ==== Sys2Proof/Safety.lean ====
section
/-! DEFINITION. What the statements are made of: a legal tree, the invariant of every reachable state, what taking a
fault leaves, a session as a sequence of commands, and how a run ends. -/

namespace Sys2Proof.Machine

/-- The tree invariants that are not in the type: every leaf symbol in 0 to 256, none at two leaves, EOS at one
(R31, items 3 to 5; items 1, 2 and 6 hold of every value of the type). -/
abbrev HuffTree.Valid (t : HuffTree) : Prop :=
  (∀ x ∈ t.leaves, x.toNat ≤ 256) ∧ t.leaves.Nodup ∧ Config.eos ∈ t.leaves

/-- The node a path leads to from the root of `t`: 0 goes left, 1 goes right (R105, R193). -/
def HuffTree.walk : Bits → HuffTree → Option HuffTree
  | [], t => some t
  | _ :: _, .leaf _ _ => none
  | b :: p, .internal l r => HuffTree.walk p (if b then r else l)

/-- The bits of the codes of a byte sequence, one code after the other (R111). -/
def codesOf (t : HuffTree) (bytes : List Byte) : Bits := bytes.flatMap fun b => (t.path (b.setWidth 9)).getD []

/-- The same read from a code table (R182). -/
def tableCodesOf (c : Table (Option Bits) 257) (bytes : List Byte) : Bits :=
  bytes.flatMap fun b => (codeOfByte c b).getD []

/-- One record of the tree grammar: a leaf with its nine bits, or an Internal marker (R100). -/
inductive TreeRecord where
  | leaf (sym : Sym)
  | internal
  deriving DecidableEq, Repr

/-- The bits of a record: `0 symbol9`, or `1` (R100, R101). -/
def TreeRecord.bits : TreeRecord → Bits
  | .leaf s => false :: bitsN s.toNat 9
  | .internal => [true]

/-- The bits of a sequence of records, in stream order. -/
def recordBits (l : List TreeRecord) : Bits := l.flatMap TreeRecord.bits

/-- The leaf symbols of a sequence of records, in stream order. -/
def recordSyms (l : List TreeRecord) : List Sym :=
  l.filterMap fun r => match r with | .leaf s => some s | .internal => none

/-- How many Internal markers stand in a sequence of records. -/
def recordInternals (l : List TreeRecord) : Nat := l.countP (· == .internal)

/-- After the records `l`, some of `k` nodes are still to be read: a leaf record completes one, an Internal marker owes two
in place of one (R100). -/
def stillOpen : Nat → List TreeRecord → Bool
  | k, [] => decide (0 < k)
  | 0, _ :: _ => false
  | k + 1, .leaf _ :: l => stillOpen k l
  | k + 1, .internal :: l => stillOpen (k + 2) l

/-- DESER has read the records `l`, met no defect in them (R139, R140, R142), and the tree is not complete. -/
structure ReadSoFar (l : List TreeRecord) : Prop where
  incomplete : stillOpen 1 l = true
  markers : recordInternals l ≤ 256
  inRange : ∀ x ∈ recordSyms l, x.toNat ≤ 256
  noRepeat : (recordSyms l).Nodup

/-- `(freq, seq)` of `a` is strictly below that of `b` (R124). -/
def Entry.Below (a b : Entry) : Prop := a.freq < b.freq ∨ (a.freq = b.freq ∧ a.seq < b.seq)

/-- BUILD's loop on a queue in any arrangement (R37, R125, R126): while two entries are left, the least one and the next
least one are replaced by their merge, which takes the next sequence number. -/
inductive MergesTo : Nat → List Entry → Entry → Prop where
  | root (seq : Nat) (e : Entry) : MergesTo seq [e] e
  | merge {seq : Nat} {q rest : List Entry} {a b e : Entry} :
      q.Perm (a :: b :: rest) → (∀ x ∈ b :: rest, a.Below x) → (∀ x ∈ rest, b.Below x) →
      MergesTo (seq + 1) (a.merge b seq :: rest) e → MergesTo seq q e

/-- BUILD's queue before the first merge: the byte leaves, then EOS (R122, R123). -/
def initialQueue (freq : Table Word 256) : List Entry :=
  byteLeaves 0 0 freq.cells ++ [eosEntry (byteLeaves 0 0 freq.cells).length]

/-- The session runs: STATE = READY with both streams open. By the invariant every READY state is one. -/
abbrev State.Live (s : State) : Prop :=
  s.session = .ready ∧ s.inp.opened = true ∧ s.out.opened = true

/-- Every piece of the core's state has its reset value, and the streams are a fresh pair: IN open at its first bit, OUT
open and empty (R43). -/
structure State.AtReset (s : State) : Prop where
  session : s.session = .ready
  err : s.err = 0
  errInfo : s.errInfo = 0
  freq : ∀ i, s.freq.get i = 0
  tree : s.tree = none
  nleaf : s.nleaf = 0
  code : s.code = none
  decDone : s.decDone = false
  lkFound : s.lkFound = false
  lklen : s.lklen = 0
  lkbits : ∀ k, s.lkbits.get k = 0
  status : s.statusWord = 0
  inp : ∃ content, s.inp = InStream.fresh content
  out : s.out = OutStream.fresh

/-- OUT after its close (R72): the file is the bits written and the least number of padding bits, of any value. -/
def OutStream.Released (o : OutStream) : Prop :=
  o.opened = false ∧ ∃ pad : Bits, pad.length = padLength o.bits.length ∧ o.file = some (packBytes (o.bits ++ pad))

/-- OUT before its close: no file yet (R69). -/
def OutStream.Running (o : OutStream) : Prop := o.opened = true ∧ o.file = none

/-- What holds at every command boundary (R23 to R45, R73). -/
structure Inv (s : State) : Prop where
  /-- FW is a legal width (R9). -/
  paramsOk : s.params.Ok
  /-- READY holds exactly while both streams are open (R73). -/
  inReady : s.session = .ready → s.inp.opened = true ∧ s.inp.dropped = []
  /-- A released IN has nothing left to read; its unread bits stand in the record `dropped` (R72, log entry 4). -/
  inReleased : s.session ≠ .ready → s.inp.opened = false ∧ s.inp.rem = []
  outReady : s.session = .ready → s.out.Running
  outReleased : s.session ≠ .ready → s.out.Released
  /-- `ERR != 0` exactly when `STATE = FAULT` (R24), with a code of the table (R231). -/
  errFault : s.err ≠ 0 ↔ s.session = .fault
  errCode : s.err.toNat ≤ 10
  /-- ERRINFO is 0 whenever ERR is 0 (R25). -/
  errInfoZero : s.err = 0 → s.errInfo = 0
  /-- Every count has FW bits (R26, R41). -/
  counts : ∀ i, (s.freq.get i).toNat < 2 ^ s.params.fw
  /-- The tree satisfies R31. -/
  treeOk : ∀ t, s.tree = some t → t.Valid
  /-- NLEAF (R33). -/
  leafCount : s.nleaf.toNat = match s.tree with | none => 0 | some t => t.nleaf
  /-- The code table is the one of the tree (R45). -/
  codeOk : ∀ c, s.code = some c → ∃ t, s.tree = some t ∧ c = codeTable t
  /-- DEC_DONE and LK_FOUND imply TREE_VALID (R45). -/
  decDoneTree : s.decDone = true → s.tree.isSome = true
  /-- The LOOKUP registers hold nothing, or the path of a symbol (R35). -/
  lookupNone : s.lkFound = false → s.lklen = 0 ∧ s.lkbits = Table.filled 8 0
  lookupSome : s.lkFound = true →
    ∃ t sym p, s.tree = some t ∧ t.path sym = some p ∧ s.lklen.toNat = p.length ∧ s.lkbits = packPath p
  /-- The streams of earlier sessions are released (R218). -/
  archived : ∀ o ∈ s.archive, o.Released

/-- `t` is what `raise F(info)` makes of `s` (R236): ERR and ERRINFO written, both streams closed, STATE = FAULT,
nothing else changed. Closing IN is the operation of R72, whose effect on the record of unread bits is log entry 4's. -/
structure FaultEntered (f : HcFault) (info : Word) (s t : State) : Prop where
  err : t.err = f.code
  errInfo : t.errInfo = info
  session : t.session = .fault
  inClosed : t.inp = s.inp.close
  outBits : t.out.bits = s.out.bits
  outReleased : t.out.Released
  rest : t = { s with err := t.err, errInfo := t.errInfo, session := t.session, inp := t.inp, out := t.out,
                      padDraws := t.padDraws }

/-- The environment's and the host's side of the state, and the parameters, are the same in both (R20, R222). -/
def State.SameSurroundings (s t : State) : Prop :=
  t.params = s.params ∧ t.pending = s.pending ∧ t.replies = s.replies ∧ t.nextInputs = s.nextInputs ∧
    t.archive = s.archive

/-- The tree store and NLEAF are the same in both. -/
def State.SameTree (s t : State) : Prop := t.tree = s.tree ∧ t.nleaf = s.nleaf

/-- The LOOKUP result is the same in both. -/
def State.SameLookup (s t : State) : Prop :=
  t.lkFound = s.lkFound ∧ t.lklen = s.lklen ∧ t.lkbits = s.lkbits

/-- A host that issues commands one after the other (R79, R222), as in the macros of R117. -/
def runCommands : List Instr → State → Host.Outcome State Fault Refusal
  | [], s => .next s
  | i :: is, s => andThen (exec i s) (runCommands is)

/-- ENCODEFILE (R117). -/
def encodeFile : List Instr := [.build, .codegen, .wrhdr, .ser, .encode, .close]

/-- DECODEFILE (R117). -/
def decodeFile : List Instr := [.rdhdr, .deser, .decode, .close]

/-- "A run has succeeded when STATE = CLOSED and ERR = 0" (R272). -/
def State.EndedWell (s : State) : Prop := s.session = .closed ∧ s.err = 0

/-- The events that start a new session: a write of a word that decodes to RESET, and the reset pin (R241). -/
def HostEvent.isReset : HostEvent → Bool
  | .rst => true
  | .wreg n v => n == cmdReg && decide (decode v = .ok .reset)
  | .rreg _ => false

end Sys2Proof.Machine
end

