-- ==== Sys2Proof/Certificates/Slice0/Obligations.lean ====
section
/-! DEFINITION. The statements about GRIN-HC that the provers are asked to settle. -/

open Sys2Proof Sys2Proof.Machine

/-! ### Command words -/

/-- R91, R93, R94, R95: decoding the word of a legal command gives the command back, with every operand. -/
def Obligations.DecodeOfEncodedCommand : Prop :=
  ∀ i : Instr, i.wellFormed = true → decode (encode i) = .ok i

/-- R95: a word matches at most one row: the command read from a word is legal, and its word is that word. -/
def Obligations.EncodeOfDecodedWord : Prop :=
  ∀ (w : Word) (i : Instr), decode w = .ok i → i.wellFormed = true ∧ encode i = w

/-- R96: "A word is illegal when its OP is 0 or 12 to 15, or when a bit of its ZERO field is 1, or when it is a LOOKUP
whose SYM field is 257 to 511." -/
def Obligations.IllegalWordsAreTheReservedOnes : Prop :=
  ∀ w : Word, (∃ e, decode w = .error e) ↔
    (w.toNat % 16 = 0 ∨ 12 ≤ w.toNat % 16 ∨ (w.toNat % 16 ≠ 4 ∧ w.toNat / 16 ≠ 0) ∨
      (w.toNat % 16 = 4 ∧ (w.toNat / 2 ^ 13 ≠ 0 ∨ 257 ≤ w.toNat / 16 % 512)))

/-- The words of R94 and of the vectors V14 to V19 decode as the table says. -/
def Obligations.SpecWordsDecode : Prop :=
  decode 0x00000001 = .ok .build ∧ decode 0x00000002 = .ok .deser ∧ decode 0x00000003 = .ok .ser ∧
  decode 0x00000414 = .ok (.lookup 65) ∧ decode 0x00001004 = .ok (.lookup 256) ∧ decode 0x00000005 = .ok .codegen ∧
  decode 0x00000006 = .ok .encode ∧ decode 0x00000007 = .ok .decode ∧ decode 0x00000008 = .ok .wrhdr ∧
  decode 0x00000009 = .ok .rdhdr ∧ decode 0x0000000A = .ok .close ∧ decode 0x0000000B = .ok .reset ∧
  decode 0x00001014 = .error (.symbolOutOfRange 257) ∧ decode 0x0000000C = .error (.reservedOpcode 12) ∧
  decode 0x80000001 = .error (.reservedBitSet 0x80000001)

/-! ### The host port -/

/-- R97, R219: a write of a legal word to CMD does the command the word decodes to, on the state with that transaction
taken off the port; nothing else is wrapped around a command. The host's `withFetchWord` puts such a write at the port. -/
def Obligations.StepRunsTheDecodedCommand : Prop :=
  (∀ (s : State) (w : Word) (rest : List HostEvent) (i : Instr),
    s.pending = .wreg 256 w :: rest → decode w = .ok i → step s = exec i { s with pending := rest }) ∧
  (∀ (s : State) (w : Word) (i : Instr),
    decode w = .ok i → step (s.withFetchWord 32 w.toNat) = exec i s)

/-- The model's choice (log entry 6): a step with no event at the port exists, and it changes nothing. The spec says that
after reset the core waits for the first bus transaction (R260) and that each transaction is a step (R222, R262); it gives
no step without one. -/
def Obligations.StepWaitsForTheHost : Prop := ∀ s : State, s.pending = [] → step s = .next s

/-- R219: WREG n, v, line by line. A write to FREQ[n] in READY is what that entry then holds, in its low FW bits, and
every other entry keeps its count (R26). -/
def Obligations.BusWriteFollowsTheRegisterNumber : Prop :=
  ∀ (s : State) (n : RegNum) (v : Word) (rest : List HostEvent), s.pending = .wreg n v :: rest →
    (n = 256 → decode v = .ok .reset → step s = exec .reset { s with pending := rest }) ∧
    (n = 256 → decode v ≠ .ok .reset → s.session ≠ .ready → step s = .next { s with pending := rest }) ∧
    (n = 256 → s.session = .ready → (∀ i, decode v ≠ .ok i) →
      step s = raise .illegalCmd v { s with pending := rest }) ∧
    (∀ i, n = 256 → s.session = .ready → decode v = .ok i → step s = exec i { s with pending := rest }) ∧
    (∀ h : n.toNat < 256, s.session = .ready →
      ∃ f : Table Word 256, step s = .next { s with pending := rest, freq := f } ∧
        (f.get ⟨n.toNat, h⟩).toNat = v.toNat % 2 ^ s.params.fw ∧
        ∀ j : Fin 256, j.val ≠ n.toNat → f.get j = s.freq.get j) ∧
    (n.toNat < 256 → s.session ≠ .ready → step s = .next { s with pending := rest }) ∧
    (256 < n.toNat → step s = .next { s with pending := rest })

/-- R220: the value RREG n returns, for every register number; a read changes nothing in the core (R42). -/
def Obligations.BusReadReturnsTheRegister : Prop :=
  ∀ (s : State) (n : RegNum) (rest : List HostEvent), s.pending = .rreg n :: rest →
    ∃ v : Word, step s = .next { s with pending := rest, replies := s.replies ++ [v] } ∧
      (∀ h : n.toNat < 256, v = s.freq.get ⟨n.toNat, h⟩) ∧
      (n.toNat = 256 → v = 0) ∧
      (n.toNat = 257 → v = s.statusWord) ∧
      (n.toNat = 258 → v = s.errInfo) ∧
      (n.toNat = 259 → v.toNat = s.nleaf.toNat) ∧
      (n.toNat = 260 → v.toNat = s.lklen.toNat) ∧
      (∀ k : Fin 8, n.toNat = 261 + k.val → v = s.lkbits.get k) ∧
      (269 ≤ n.toNat → v = 0)

/-- R28: the fields of STATUS, the reserved ones 0; and a write to STATUS is ignored. -/
def Obligations.StatusWordHoldsTheFields : Prop :=
  ∀ s : State,
    s.statusWord.extractLsb' 0 2 = (match s.session with | .ready => 0#2 | .closed => 1#2 | .fault => 2#2) ∧
    s.statusWord.getLsbD 2 = s.tree.isSome ∧
    s.statusWord.getLsbD 3 = s.code.isSome ∧
    s.statusWord.getLsbD 4 = s.decDone ∧
    s.statusWord.getLsbD 5 = s.lkFound ∧
    s.statusWord.extractLsb' 6 2 = 0#2 ∧
    s.statusWord.extractLsb' 8 4 = s.err ∧
    s.statusWord.extractLsb' 12 20 = 0#20 ∧
    (∀ (v : Word) (rest : List HostEvent), s.pending = .wreg 257 v :: rest → step s = .next { s with pending := rest })

/-- R240: in CLOSED and in FAULT nothing but RESET and the reset pin changes a register, a flag or a stream, and no fault
is raised; reads still answer. -/
def Obligations.EndedSessionIgnoresAllButReset : Prop :=
  ∀ (s : State) (e : HostEvent) (rest : List HostEvent),
    s.session ≠ .ready → s.pending = e :: rest → e.isReset = false →
    step s = .next { s with
      pending := rest
      replies := match e with | .rreg n => s.replies ++ [readReg n s] | _ => s.replies }

/-- R241: only RESET and the reset pin leave FAULT and CLOSED; they discard the tree, the tables, the fault record and the
streams and start a new session; no other event does, and none raises a second fault. -/
def Obligations.ResetLeavesAnEndedSession : Prop :=
  ∀ (s : State) (e : HostEvent) (rest : List HostEvent), s.session ≠ .ready → s.pending = e :: rest →
    (e.isReset = true → ∃ t, step s = .next t ∧ t.session = .ready ∧ t.err = 0 ∧ t.errInfo = 0 ∧ t.tree = none ∧
      t.code = none ∧ (∀ i, t.freq.get i = 0) ∧ (∃ q, t.inp = InStream.fresh q) ∧ t.out = OutStream.fresh) ∧
    (e.isReset = false → ∃ t, step s = .next t ∧ t.session = s.session ∧ t.err = s.err ∧ t.errInfo = s.errInfo)

/-! ### Reset -/

/-- R43: the reset values, in the state that the machine starts in, after the command RESET and after the reset pin. The
premise holds in every state that satisfies the invariant. -/
def Obligations.ResetGivesTheResetValues : Prop :=
  State.reset.AtReset ∧
  ∀ s : State, (s.session = .ready → s.inp.opened = true ∧ s.out.opened = true) →
    (∃ t, exec .reset s = .next t ∧ t.AtReset) ∧
    (∀ rest, s.pending = .rst :: rest → ∃ t, step s = .next t ∧ t.AtReset)

/-- R218, R260: RESET in every STATE, and the reset pin, which gives the same state. The streams of an abandoned session
are closed first; every register and flag gets its reset value; the environment attaches a fresh pair. That the released OUT is kept in an archive and that the next input
of a list is attached is the model's choice (log entry 5). -/
def Obligations.ResetCommandReturnsToTheResetState : Prop :=
  (∀ (s : State) (rest : List HostEvent), s.pending = .rst :: rest → step s = exec .reset { s with pending := rest }) ∧
  ∀ s : State, (s.session = .ready → s.inp.opened = true ∧ s.out.opened = true) →
    ∃ (t : State) (o : OutStream), exec .reset s = .next t ∧
      t = { State.reset with
            inp := InStream.fresh (s.nextInputs.headD [])
            nextInputs := s.nextInputs.tail
            archive := s.archive ++ [o]
            padDraws := t.padDraws
            pending := s.pending
            replies := s.replies
            params := s.params } ∧
      o.bits = s.out.bits ∧ (s.session = .ready → o.Released) ∧ (s.session ≠ .ready → o = s.out)

/-! ### Faults -/

/-- R236: `raise F(info)`, for every fault and every state whose streams are open. -/
def Obligations.FaultEntryRecordsAndReleases : Prop :=
  ∀ (f : HcFault) (info : Word) (s : State), s.inp.opened = true → s.out.opened = true →
    ∃ t, raise f info s = .next t ∧ FaultEntered f info s t

/-- R231: the ten codes, one to ten, in the order of the table. -/
def Obligations.FaultCodesAreTheTable : Prop :=
  [HcFault.treeEof, .symNotFound, .truncated, .magicMismatch, .treeSym, .treeDup, .treeNoEos, .treeOvf, .seq,
    .illegalCmd].map HcFault.code = [1, 2, 3, 4, 5, 6, 7, 8, 9, 10] ∧
  ∀ f g : HcFault, f.code = g.code → f = g

/-- R233: an illegal word written to CMD in READY takes E_ILLEGAL_CMD with ERRINFO = the word. -/
def Obligations.IllegalWordTakesIllegalCmd : Prop :=
  ∀ (s : State) (w : Word) (rest : List HostEvent) (e : DecodeError),
    s.Live → s.pending = .wreg 256 w :: rest → decode w = .error e →
    ∃ t, step s = .next t ∧ FaultEntered .illegalCmd w { s with pending := rest } t

/-- R234: E_SEQ, command by command, with the command word in ERRINFO; no bit is consumed and none written. -/
def Obligations.SequencingFaultsRecordTheWord : Prop :=
  ∀ s : State, s.Live →
    (s.tree ≠ none → ∃ t, exec .build s = .next t ∧ FaultEntered .seq 0x00000001 s t) ∧
    (s.tree ≠ none → ∃ t, exec .deser s = .next t ∧ FaultEntered .seq 0x00000002 s t) ∧
    (s.tree = none → ∃ t, exec .ser s = .next t ∧ FaultEntered .seq 0x00000003 s t) ∧
    (s.tree = none → ∀ sym : Sym,
      ∃ t, exec (.lookup sym) s = .next t ∧ FaultEntered .seq (BitVec.ofNat 32 (4 + 16 * sym.toNat)) s t) ∧
    (s.tree = none → ∃ t, exec .codegen s = .next t ∧ FaultEntered .seq 0x00000005 s t) ∧
    (s.code = none → ∃ t, exec .encode s = .next t ∧ FaultEntered .seq 0x00000006 s t) ∧
    (s.tree = none → ∃ t, exec .decode s = .next t ∧ FaultEntered .seq 0x00000007 s t)

/-! ### Bit Streams -/

/-- R68 (with R67): `readBits(n)` gives the first n bits, most significant first, and removes them; with fewer than n
bits left it gives END and consumes what was left. -/
def Obligations.ReadBitsTakesTheFirstBits : Prop :=
  ∀ (n : Nat) (s : InStream),
    (∀ (v : BitVec n) (rest : Bits), s.rem = bitsN v.toNat n ++ rest →
      s.readBits n = (some v, { s with rem := rest })) ∧
    (s.rem.length < n → s.readBits n = (none, { s with rem := [] }))

/-- R71 (with R70): `writeBits(v, n)` appends `bitsN(v, n)`, for every v, and `put` appends a code. -/
def Obligations.WriteBitsAppends : Prop :=
  ∀ (o : OutStream),
    (∀ v n : Nat, OutStream.writeBits v n o = { o with bits := o.bits ++ bitsN v n }) ∧
    (∀ p : Bits, o.put p = { o with bits := o.bits ++ p })

/-- R72. Closing OUT makes the file that holds the bits written and then the padding, whatever its value; the padding is
the least that completes a byte; an empty OUT gives an empty file. Closing IN drops the unread bits: that `rem` itself is
then empty is the model's reading (log entry 4), since the programs P2 and P3 still count the bits left after CLOSE. -/
def Obligations.ClosedFileHoldsTheBits : Prop :=
  (∀ i : InStream, i.close.opened = false ∧ i.close.rem = []) ∧
  ∀ (o : OutStream) (pad : Bits), pad.length = padLength o.bits.length →
    (o.close pad).opened = false ∧ (o.close pad).bits = o.bits ∧
    (∃ f, (o.close pad).file = some f ∧ fileBits f = o.bits ++ pad ∧ (o.bits = [] → f = [])) ∧
    (o.bits.length % 8 = 0 → pad = []) ∧
    (o.bits.length % 8 ≠ 0 → pad.length = 8 - o.bits.length % 8)

/-! ### BUILD -/

/-- R121, R128: BUILD stores a legal tree whose leaves are the observed symbols with their counts and EOS with frequency
1, and NLEAF; nothing else changes. -/
def Obligations.BuildStoresTheObservedSymbols : Prop :=
  ∀ s : State, s.session = .ready → s.tree = none →
    ∃ t, exec .build s = .next { s with tree := some t, nleaf := BitVec.ofNat 9 t.nleaf } ∧ t.Valid ∧
      (∀ x f, (x, f) ∈ t.leafRecords ↔
        (x = 256 ∧ f = 1) ∨ (∃ i : Fin 256, x = BitVec.ofNat 9 i.val ∧ f = (s.freq.get i).toNat ∧ f ≠ 0)) ∧
      t.nleaf = 1 + (s.freq.cells.filter (· ≠ 0)).length

/-- R121, R124 to R126, R37: the merge loop has exactly one outcome on the initial queue in any arrangement, extraction in
the order of `(freq, seq)`, first out to the left; and the tree of that outcome is the one BUILD stores, with the size of
the initial queue in NLEAF. -/
def Obligations.BuildIsTheMergeOfTheQueue : Prop :=
  (∀ (freq : Table Word 256) (e : Entry),
    MergesTo (buildLeafCount freq) (initialQueue freq) e ↔ e = buildRoot freq) ∧
  ∀ s : State, s.session = .ready → s.tree = none →
    exec .build s = .next { s with
      tree := some (buildRoot s.freq).tree
      nleaf := BitVec.ofNat 9 (initialQueue s.freq).length }

/-- R127, R128: the root's frequency is 1 + the sum of FREQ and fits NFW = FW + 9 bits, so no sum overflows. -/
def Obligations.RootFrequencyFitsItsWidth : Prop :=
  ∀ (freq : Table Word 256) (fw : Nat), (∀ i, (freq.get i).toNat < 2 ^ fw) →
    (buildRoot freq).freq = 1 + (freq.cells.map BitVec.toNat).sum ∧ (buildRoot freq).freq < 2 ^ Config.nfw fw

/-- R129, rows 1 to 3: no observed symbol; one symbol seen once; one symbol seen more often. -/
def Obligations.BuildOfAtMostOneSymbol : Prop :=
  ∀ s : State, s.session = .ready → s.tree = none →
    ((∀ i, s.freq.get i = 0) → exec .build s = .next { s with tree := some (.leaf 256 1), nleaf := 1 }) ∧
    (∀ i, (∀ j, j ≠ i → s.freq.get j = 0) → s.freq.get i = 1 →
      exec .build s = .next { s with
        tree := some (.internal (.leaf (BitVec.ofNat 9 i.val) 1) (.leaf 256 1)), nleaf := 2 }) ∧
    (∀ i, (∀ j, j ≠ i → s.freq.get j = 0) → 2 ≤ (s.freq.get i).toNat →
      exec .build s = .next { s with
        tree := some (.internal (.leaf 256 1) (.leaf (BitVec.ofNat 9 i.val) (s.freq.get i).toNat)), nleaf := 2 })

/-! ### DESER -/

/-- R146, R144: DESER reads back a serialized legal tree, with leaf frequencies 0, and stops at the bit after it. -/
def Obligations.DeserReadsBackASerializedTree : Prop :=
  ∀ (s : State) (t : HuffTree) (rest : Bits),
    s.session = .ready → s.inp.opened = true → s.tree = none → t.Valid → s.inp.rem = t.ser ++ rest →
    exec .deser s = .next { s with
      tree := some t.shape, nleaf := BitVec.ofNat 9 t.nleaf, inp := { s.inp with rem := rest } }

/-- R145: when DESER succeeds, the bits it consumed are the serialization of the legal tree it stored. -/
def Obligations.DeserConsumesASerializedTree : Prop :=
  ∀ s u : State, s.session = .ready → s.tree = none → exec .deser s = .next u → u.session = .ready →
    ∃ t, t.Valid ∧ t.shape = t ∧ s.inp.rem = t.ser ++ u.inp.rem ∧
      u = { s with tree := some t, nleaf := BitVec.ofNat 9 t.nleaf, inp := { s.inp with rem := u.inp.rem } }

/-- R139, R140: after records without a defect that do not complete the tree, a leaf record that holds 257 to 511 takes
E_TREE_SYM with that value, and one that repeats a symbol E_TREE_DUP with the symbol; IN stands after that record, so the
defect met first in stream order is the one reported. -/
def Obligations.DeserFaultsOnABadLeafRecord : Prop :=
  ∀ (s : State) (l : List TreeRecord) (x : Sym) (rest : Bits),
    s.Live → s.tree = none → ReadSoFar l → s.inp.rem = recordBits l ++ (false :: (bitsN x.toNat 9 ++ rest)) →
    (257 ≤ x.toNat → ∃ u, exec .deser s = .next u ∧
      FaultEntered .treeSym (x.setWidth 32) { s with inp := { s.inp with rem := rest } } u) ∧
    (x ∈ recordSyms l → ∃ u, exec .deser s = .next u ∧
      FaultEntered .treeDup (x.setWidth 32) { s with inp := { s.inp with rem := rest } } u)

/-- R141: a complete tree without defects and without an EOS leaf takes E_TREE_NOEOS, after all its bits. -/
def Obligations.DeserFaultsWithoutEos : Prop :=
  ∀ (s : State) (t : HuffTree) (rest : Bits),
    s.Live → s.tree = none → s.inp.rem = t.ser ++ rest →
    t.leaves.Nodup → (∀ x ∈ t.leaves, x.toNat ≤ 256) → (256 : Sym) ∉ t.leaves →
    ∃ u, exec .deser s = .next u ∧ FaultEntered .treeNoEos 0 { s with inp := { s.inp with rem := rest } } u

/-- R142: a marker 1 read when 256 of them have been read takes E_TREE_OVF "before reading anything more". -/
def Obligations.DeserFaultsOnThe257thMarker : Prop :=
  ∀ (s : State) (l : List TreeRecord) (rest : Bits),
    s.Live → s.tree = none → ReadSoFar l → recordInternals l = 256 → s.inp.rem = recordBits l ++ (true :: rest) →
    ∃ u, exec .deser s = .next u ∧ FaultEntered .treeOvf 0 { s with inp := { s.inp with rem := rest } } u

/-- R143: a stream that ends where a marker or one of the nine bits of a symbol is due takes E_TREE_EOF. -/
def Obligations.DeserFaultsWhereTheStreamEnds : Prop :=
  ∀ (s : State) (l : List TreeRecord) (q : Bits),
    s.Live → s.tree = none → ReadSoFar l → (q = [] ∨ ∃ z : Bits, q = false :: z ∧ z.length < 9) →
    s.inp.rem = recordBits l ++ q →
    ∃ u, exec .deser s = .next u ∧ FaultEntered .treeEof 0 { s with inp := { s.inp with rem := [] } } u

/-! ### SER -/

/-- R151: SER appends `Ser(TREE)` to OUT; no register or flag changes. Without a tree it takes E_SEQ, and after the session
has ended it is ignored. -/
def Obligations.SerAppendsTheSerialization : Prop :=
  ∀ s : State,
    (s.session ≠ .ready → exec .ser s = .next s) ∧
    (s.Live → s.tree = none → ∃ u, exec .ser s = .next u ∧ FaultEntered .seq 0x00000003 s u) ∧
    (∀ t, s.session = .ready → s.out.opened = true → s.tree = some t →
      exec .ser s = .next { s with out := { s.out with bits := s.out.bits ++ t.ser } })

/-- R102, R154: a serialized tree has `10*L + I = 11*L - 1` bits. -/
def Obligations.SerializedTreeLength : Prop :=
  ∀ t : HuffTree, t.ser.length = 10 * t.nleaf + t.nint ∧ t.ser.length + 1 = 11 * t.nleaf

/-- R103: `Ser(t) = Ser(u)` exactly when the shapes are equal, and no serialization is a proper beginning of another. -/
def Obligations.SerializationIsUniquelyReadable : Prop :=
  (∀ t u : HuffTree, t.ser = u.ser ↔ t.shape = u.shape) ∧
  (∀ (t u : HuffTree) (q : Bits), t.ser ++ q = u.ser → q = [])

/-! ### LOOKUP and CODEGEN -/

/-- R162: LOOKUP writes the path of the symbol, or "not found" with zeros, which is not a fault; nothing else changes.
Without a tree it takes E_SEQ with the command word, and after the session has ended it is ignored. -/
def Obligations.LookupReportsThePath : Prop :=
  ∀ (s : State) (sym : Sym),
    (s.session ≠ .ready → exec (.lookup sym) s = .next s) ∧
    (s.Live → s.tree = none →
      ∃ u, exec (.lookup sym) s = .next u ∧ FaultEntered .seq (BitVec.ofNat 32 (4 + 16 * sym.toNat)) s u) ∧
    (∀ t, s.session = .ready → s.tree = some t → t.path sym = none →
      exec (.lookup sym) s = .next { s with lkFound := false, lklen := 0, lkbits := Table.filled 8 0 }) ∧
    (∀ t p, s.session = .ready → s.tree = some t → t.path sym = some p →
      exec (.lookup sym) s = .next { s with lkFound := true, lklen := BitVec.ofNat 9 p.length, lkbits := packPath p })

/-- R35: path element i is bit `31 - (i mod 32)` of `LKBITS[i div 32]`, and every bit beyond the path is 0. -/
def Obligations.LookupBitsHoldThePath : Prop :=
  ∀ (p : Bits) (k : Fin 8) (j : Nat), p.length ≤ 256 → j < 32 →
    ((packPath p).get k).getLsbD (31 - j) = p.getD (32 * k.val + j) false

/-- R160, R161, R105: in a legal tree the path of a symbol is the way from the root to its leaf, and a symbol is absent
exactly when no leaf holds it. -/
def Obligations.PathLeadsToTheLeaf : Prop :=
  ∀ (t : HuffTree) (x : Sym), t.Valid →
    (∀ p, t.path x = some p ↔ ∃ f, t.walk p = some (.leaf x f)) ∧ (t.path x = none ↔ x ∉ t.leaves)

/-- R106, R167: no code is the beginning of the code of another symbol, no code is longer than 256 bits, and with two
leaves or more none is empty. -/
def Obligations.CodesArePrefixFree : Prop :=
  ∀ (t : HuffTree) (x y : Sym) (p q : Bits), t.Valid → t.path x = some p → t.path y = some q →
    (p <+: q → x = y) ∧ p.length ≤ 256 ∧ (2 ≤ t.nleaf → 1 ≤ p.length)

/-- R166: CODEGEN fills CODE with the path of every symbol, and changes nothing else. Without a tree it takes E_SEQ, and
after the session has ended it is ignored. -/
def Obligations.CodegenFillsTheTable : Prop :=
  ∀ s : State,
    (s.session ≠ .ready → exec .codegen s = .next s) ∧
    (s.Live → s.tree = none → ∃ u, exec .codegen s = .next u ∧ FaultEntered .seq 0x00000005 s u) ∧
    (∀ t, s.session = .ready → s.tree = some t → ∃ c, exec .codegen s = .next { s with code := some c } ∧
      ∀ i : Fin 257, c.get i = t.path (BitVec.ofNat 9 i.val))

/-- R167: the table of a legal tree has as many codes as the tree has leaves, and EOS has one. -/
def Obligations.CodeTableCountsTheLeaves : Prop :=
  ∀ t : HuffTree, t.Valid →
    ((codeTable t).cells.filter Option.isSome).length = t.nleaf ∧ (codeOfEos (codeTable t)).isSome = true

/-- R163, R180, R195: the single-leaf tree. The code of EOS is empty and every other symbol is absent; DECODE is done
without reading a bit, whatever IN holds. -/
def Obligations.SingleLeafTreeHasTheEmptyCode : Prop :=
  ∀ (s : State) (f : Nat), s.session = .ready → s.tree = some (.leaf 256 f) →
    exec (.lookup 256) s = .next { s with lkFound := true, lklen := 0, lkbits := Table.filled 8 0 } ∧
    (∀ x : Sym, x ≠ 256 →
      exec (.lookup x) s = .next { s with lkFound := false, lklen := 0, lkbits := Table.filled 8 0 }) ∧
    exec .decode s = .next { s with decDone := true }

/-! ### ENCODE -/

/-- R182, R181, R180: ENCODE writes the code of every byte and then the code of EOS, drops 1 to 7 odd bits at the end of
IN, and changes no register or flag. -/
def Obligations.EncodeWritesTheCodes : Prop :=
  ∀ (s : State) (c : Table (Option Bits) 257) (bytes : List Byte) (odd eosCode : Bits),
    s.Live → s.code = some c → s.inp.rem = fileBits bytes ++ odd → odd.length < 8 →
    (∀ b ∈ bytes, (codeOfByte c b).isSome = true) → codeOfEos c = some eosCode →
    exec .encode s = .next { s with
      inp := { s.inp with rem := [] }
      out := { s.out with bits := s.out.bits ++ (tableCodesOf c bytes ++ eosCode) } }

/-- R179, R182: at the first byte without a code ENCODE takes E_SYM_NOT_FOUND with the byte in ERRINFO; the codes before
it stay written, and no bit after it is read. -/
def Obligations.EncodeFaultsAtAByteWithoutACode : Prop :=
  ∀ (s : State) (c : Table (Option Bits) 257) (bytes : List Byte) (v : Byte) (rest : Bits),
    s.Live → s.code = some c → s.inp.rem = fileBits bytes ++ (bitsN v.toNat 8 ++ rest) →
    (∀ b ∈ bytes, (codeOfByte c b).isSome = true) → codeOfByte c v = none →
    ∃ u, exec .encode s = .next u ∧ FaultEntered .symNotFound (v.setWidth 32) { s with
      inp := { s.inp with rem := rest }
      out := { s.out with bits := s.out.bits ++ tableCodesOf c bytes } } u

/-! ### DECODE -/

/-- R198: DECODE writes the bytes whose codes stand on IN, stops after the code of EOS, sets DEC_DONE, and leaves the
rest of IN. -/
def Obligations.DecodeWritesTheBytes : Prop :=
  ∀ (s : State) (t : HuffTree) (bytes : List Byte) (eosCode rest : Bits),
    s.Live → s.tree = some t → t.Valid → (∀ b ∈ bytes, (t.path (b.setWidth 9)).isSome = true) →
    t.path 256 = some eosCode → s.inp.rem = codesOf t bytes ++ (eosCode ++ rest) →
    exec .decode s = .next { s with
      inp := { s.inp with rem := rest }
      out := { s.out with bits := s.out.bits ++ fileBits bytes }
      decDone := true }

/-- R194: when IN ends between two codes or inside one, DECODE takes E_TRUNCATED; the bytes before stay written, and
DEC_DONE is 0. -/
def Obligations.DecodeFaultsWhenTheInputEnds : Prop :=
  ∀ (s : State) (t : HuffTree) (bytes : List Byte) (x : Sym) (q r : Bits),
    s.Live → s.tree = some t → t.Valid → (∀ b ∈ bytes, (t.path (b.setWidth 9)).isSome = true) →
    t.path x = some (q ++ r) → r ≠ [] → s.inp.rem = codesOf t bytes ++ q →
    ∃ u, exec .decode s = .next u ∧ FaultEntered .truncated 0 { s with
      inp := { s.inp with rem := [] }
      out := { s.out with bits := s.out.bits ++ fileBits bytes }
      decDone := false } u

/-- R197: "every non-terminal traversal step strictly consumes exactly one input bit; output emission happens only at
Leaf nodes other than the end-of-stream leaf." The pass that ends at EOS consumes one bit too and writes nothing, and the
walk ends within one pass for each bit of IN and one for its end: more passes change nothing. -/
def Obligations.TraversalStepConsumesOneBit : Prop :=
  (∀ (root : Children) (c c' : DecodeConfig), decodeStep root c = .more c' →
    ∃ b : Bool, c.inp = { c'.inp with rem := b :: c'.inp.rem } ∧
      ((c'.out = c.out ∧ (if b then c.cur.right else c.cur.left) = .internal c'.cur.left c'.cur.right) ∨
       (∃ x f, (if b then c.cur.right else c.cur.left) = .leaf x f ∧ x ≠ 256 ∧ c'.cur = root ∧
          c'.out = { c.out with bits := c.out.bits ++ bitsN x.toNat 8 }))) ∧
  (∀ (root : Children) (c : DecodeConfig) (r : InStream) (o : OutStream),
    decodeStep root c = .ended (.finished r o) →
    ∃ b : Bool, c.inp = { r with rem := b :: r.rem } ∧ o = c.out ∧
      ∃ f, (if b then c.cur.right else c.cur.left) = .leaf 256 f) ∧
  (∀ (root : Children) (c : DecodeConfig) (n : Nat), c.inp.rem.length < n →
    decodeRun root n c = decodeRun root (c.inp.rem.length + 1) c)

/-! ### WRHDR, RDHDR, CLOSE -/

/-- R206: WRHDR appends the 32 bits of MAGIC, whatever MAGIC is and whether or not there is a tree; after the session has
ended it is ignored. -/
def Obligations.WrhdrAppendsTheMagic : Prop :=
  ∀ s : State,
    (s.session ≠ .ready → exec .wrhdr s = .next s) ∧
    (s.session = .ready → s.out.opened = true →
      exec .wrhdr s = .next { s with out := { s.out with bits := s.out.bits ++ bitsN s.params.magic.toNat 32 } })

/-- R208, R209, R210: RDHDR accepts MAGIC and consumes it; any other header takes E_MAGIC with the value read, and a
short input E_MAGIC with 0; after the session has ended it is ignored. -/
def Obligations.RdhdrChecksTheHeader : Prop :=
  ∀ s : State,
    (s.session ≠ .ready → exec .rdhdr s = .next s) ∧
    (∀ rest, s.Live → s.inp.rem = bitsN s.params.magic.toNat 32 ++ rest →
      exec .rdhdr s = .next { s with inp := { s.inp with rem := rest } }) ∧
    (∀ (v : Word) (rest : Bits), s.Live → s.inp.rem = bitsN v.toNat 32 ++ rest → v ≠ s.params.magic →
      ∃ u, exec .rdhdr s = .next u ∧ FaultEntered .magicMismatch v { s with inp := { s.inp with rem := rest } } u) ∧
    (s.Live → s.inp.rem.length < 32 →
      ∃ u, exec .rdhdr s = .next u ∧ FaultEntered .magicMismatch 0 { s with inp := { s.inp with rem := [] } } u)

/-- R216: CLOSE releases both streams (R72) and sets STATE = CLOSED, with a tree or without; no flag or register changes.
After it, and after a fault, every command but RESET is ignored. That the released IN has an empty `rem`, with its unread
bits in the record `dropped`, is the model's reading (log entry 4). -/
def Obligations.CloseReleasesBothStreams : Prop :=
  ∀ s : State,
    (s.session ≠ .ready → ∀ i : Instr, i ≠ .reset → exec i s = .next s) ∧
    (s.Live → ∃ t, exec .close s = .next t ∧ t.session = .closed ∧
      t.inp = { rem := [], opened := false, dropped := s.inp.rem } ∧ t.out.bits = s.out.bits ∧ t.out.Released ∧
      t = { s with session := t.session, inp := t.inp, out := t.out, padDraws := t.padDraws })

/-! ### The whole machine -/

/-- The reset state satisfies the invariant. -/
def Obligations.ResetSatisfiesTheInvariant : Prop := Inv State.reset

/-- R23 to R45, R73: every step keeps the invariant. Its clause that a released IN has an empty `rem` is the model's
reading (log entry 4). -/
def Obligations.StepKeepsTheInvariant : Prop := ∀ s t : State, Inv s → step s = .next t → Inv t

/-- R73, R248: from a state that satisfies the invariant no step stops the model: no operation on a closed stream, and
no command without an outcome. -/
def Obligations.StepNeverStops : Prop := ∀ s : State, Inv s → ∃ t, step s = .next t

/-- The model's choice (R73, R180; log entries 7 and 8): in a READY state that no run reaches, a command that would use a
closed stream stops the model, and so does the terminator of ENCODE without a code for EOS. -/
def Obligations.UnreachableUsesStopTheModel : Prop :=
  ∀ s : State, s.session = .ready →
    (s.inp.opened = false → exec .rdhdr s = .fault .closedStream ∧
      (s.tree = none → exec .deser s = .fault .closedStream) ∧
      (s.code ≠ none → exec .encode s = .fault .closedStream) ∧
      (∀ l r, s.tree = some (.internal l r) → exec .decode s = .fault .closedStream)) ∧
    (s.out.opened = false → exec .wrhdr s = .fault .closedStream ∧
      (s.tree ≠ none → exec .ser s = .fault .closedStream) ∧
      (s.code ≠ none → exec .encode s = .fault .closedStream) ∧
      (∀ l r, s.tree = some (.internal l r) → exec .decode s = .fault .closedStream)) ∧
    (s.inp.opened = false ∨ s.out.opened = false → exec .close s = .fault .closedStream ∧
      exec .reset s = .fault .closedStream ∧ ∀ f info, raise f info s = .fault .closedStream) ∧
    (∀ c, s.Live → s.code = some c → codeOfEos c = none → s.inp.rem.length < 8 →
      exec .encode s = .fault .noEosCode)

/-- R44: once a session has a tree, no event but a reset replaces it or NLEAF; BUILD and DESER take E_SEQ without touching
it. -/
def Obligations.TreeStaysUntilReset : Prop :=
  (∀ (s t : State) (tree : HuffTree) (e : HostEvent) (rest : List HostEvent),
    s.tree = some tree → s.pending = e :: rest → e.isReset = false → step s = .next t →
    t.tree = some tree ∧ t.nleaf = s.nleaf) ∧
  (∀ s : State, s.Live → s.tree ≠ none →
    (∃ t, exec .build s = .next t ∧ FaultEntered .seq 0x00000001 s t ∧ t.tree = s.tree ∧ t.nleaf = s.nleaf) ∧
    (∃ t, exec .deser s = .next t ∧ FaultEntered .seq 0x00000002 s t ∧ t.tree = s.tree ∧ t.nleaf = s.nleaf))

/-- R24, R237: the frame of every command but RESET. FREQ, the parameters and the host's and the environment's side are
unchanged; ERR and ERRINFO change only when the command takes a fault; the bits already written stay. -/
def Obligations.FrameOfEveryCommand : Prop :=
  ∀ (i : Instr) (s t : State), i ≠ .reset → exec i s = .next t →
    s.SameSurroundings t ∧ t.freq = s.freq ∧ s.out.bits <+: t.out.bits ∧
    (t.session = s.session → t.err = s.err ∧ t.errInfo = s.errInfo)

/-- R121, R136, R162, R166: the frame of BUILD, DESER, LOOKUP and CODEGEN. None writes OUT or DEC_DONE; BUILD and DESER
leave the code table and the LOOKUP result, LOOKUP and CODEGEN the tree, LOOKUP the table, CODEGEN the LOOKUP result;
unless a fault is taken, OUT is untouched and only DESER reads IN. -/
def Obligations.FrameOfTreeAndCodeCommands : Prop :=
  ∀ (i : Instr) (s t : State),
    (i = .build ∨ i = .deser ∨ i = .codegen ∨ ∃ sym, i = .lookup sym) → exec i s = .next t →
    t.decDone = s.decDone ∧ t.out.bits = s.out.bits ∧
    (i = .build ∨ i = .deser → t.code = s.code ∧ s.SameLookup t) ∧
    (i = .codegen → s.SameTree t ∧ s.SameLookup t) ∧
    (∀ sym, i = .lookup sym → s.SameTree t ∧ t.code = s.code) ∧
    (t.session = s.session → t.out = s.out ∧ (i ≠ .deser → t.inp = s.inp))

/-- R151, R176, R192, R206, R208, R216: the frame of the commands that only use the streams. The tree, NLEAF, the code
table and the LOOKUP result are unchanged, and DEC_DONE too but by DECODE; unless a fault is taken, SER and WRHDR leave
IN, and RDHDR leaves OUT. -/
def Obligations.FrameOfStreamCommands : Prop :=
  ∀ (i : Instr) (s t : State),
    (i = .ser ∨ i = .encode ∨ i = .decode ∨ i = .wrhdr ∨ i = .rdhdr ∨ i = .close) → exec i s = .next t →
    s.SameTree t ∧ t.code = s.code ∧ s.SameLookup t ∧ (i ≠ .decode → t.decDone = s.decDone) ∧
    (t.session = s.session → (i = .ser ∨ i = .wrhdr → t.inp = s.inp) ∧ (i = .rdhdr → t.out = s.out))

/-- R62, R237: a stream is never repositioned. Whatever a command other than RESET does, the bits left on IN, or left when
it was closed, are an end of the bits that were there, and the bits of OUT begin with those that were there. The premise
holds in every READY state that satisfies the invariant. -/
def Obligations.StreamsOnlyMoveForward : Prop :=
  ∀ (i : Instr) (s t : State), i ≠ .reset → s.session = .ready → s.inp.dropped = [] → exec i s = .next t →
    t.inp.rem ++ t.inp.dropped <:+ s.inp.rem ∧ s.out.bits <+: t.out.bits

/-! ### The two runs -/

/-- R110, R111, R264: ENCODEFILE leaves the magic, the serialized tree and the payload on OUT, when every byte of the
input has a count that is not 0. -/
def Obligations.EncodeRunMakesTheArtefact : Prop :=
  ∀ (s : State) (bytes : List Byte),
    s.Live → s.tree = none → s.err = 0 → s.out.bits = [] → s.inp.rem = fileBits bytes →
    (∀ b ∈ bytes, ∃ i : Fin 256, i.val = b.toNat ∧ s.freq.get i ≠ 0) →
    ∃ u t eosCode, runCommands encodeFile s = .next u ∧ u.EndedWell ∧ u.tree = some t ∧ t.Valid ∧
      t.path 256 = some eosCode ∧ (∀ b ∈ bytes, (t.path (b.setWidth 9)).isSome = true) ∧ u.out.Released ∧
      u.out.bits = bitsN s.params.magic.toNat 32 ++ (t.ser ++ (codesOf t bytes ++ eosCode))

/-- R265: DECODEFILE on an artefact, with any bits after the code of EOS and whatever FREQ holds, ends well; OUT holds the
decoded bytes, eight bits each, and its file is those bytes. -/
def Obligations.DecodeRunRestoresTheInput : Prop :=
  ∀ (s : State) (t : HuffTree) (bytes : List Byte) (eosCode pad : Bits),
    s.Live → s.tree = none → s.err = 0 → s.out.bits = [] → t.Valid →
    (∀ b ∈ bytes, (t.path (b.setWidth 9)).isSome = true) → t.path 256 = some eosCode →
    s.inp.rem = bitsN s.params.magic.toNat 32 ++ (t.ser ++ (codesOf t bytes ++ (eosCode ++ pad))) →
    ∃ v, runCommands decodeFile s = .next v ∧ v.EndedWell ∧ v.decDone = true ∧ v.out.bits = fileBits bytes ∧
      v.out.file = some bytes

/-- R199: "for any input file, decode(encode(f)) == f, byte-for-byte, for all file sizes including empty", for every
value of the padding. -/
def Obligations.DecodeOfEncodedFileIsTheFile : Prop :=
  ∀ (s₁ : State) (bytes : List Byte),
    s₁.Live → s₁.tree = none → s₁.err = 0 → s₁.out.bits = [] → s₁.inp.rem = fileBits bytes →
    (∀ b ∈ bytes, ∃ i : Fin 256, i.val = b.toNat ∧ s₁.freq.get i ≠ 0) →
    ∃ u artefact, runCommands encodeFile s₁ = .next u ∧ u.EndedWell ∧ u.out.file = some artefact ∧
      ∀ s₂ : State, s₂.Live → s₂.tree = none → s₂.err = 0 → s₂.out.bits = [] → s₂.params.magic = s₁.params.magic →
        s₂.inp.rem = fileBits artefact →
        ∃ v, runCommands decodeFile s₂ = .next v ∧ v.EndedWell ∧ v.decDone = true ∧ v.out.file = some bytes
end

