-- ==== Sys2Proof/Laws/State.lean ====
section
/-! SUPPORT. One lemma per field and named update of the state and of the two streams, each true by `rfl`. -/

namespace Sys2Proof.Machine

@[simp] theorem InStream.fresh_rem (q : Bits) : (InStream.fresh q).rem = q := rfl
@[simp] theorem InStream.fresh_opened (q : Bits) : (InStream.fresh q).opened = true := rfl
@[simp] theorem InStream.fresh_dropped (q : Bits) : (InStream.fresh q).dropped = [] := rfl
@[simp] theorem InStream.close_rem (s : InStream) : s.close.rem = [] := rfl
@[simp] theorem InStream.close_opened (s : InStream) : s.close.opened = false := rfl
@[simp] theorem InStream.close_dropped (s : InStream) : s.close.dropped = s.rem := rfl

@[simp] theorem OutStream.fresh_bits : OutStream.fresh.bits = [] := rfl
@[simp] theorem OutStream.fresh_opened : OutStream.fresh.opened = true := rfl
@[simp] theorem OutStream.fresh_file : OutStream.fresh.file = none := rfl
@[simp] theorem OutStream.writeBit_bits (o : OutStream) (b : Bool) : (o.writeBit b).bits = o.bits ++ [b] := rfl
@[simp] theorem OutStream.writeBit_opened (o : OutStream) (b : Bool) : (o.writeBit b).opened = o.opened := rfl
@[simp] theorem OutStream.writeBit_file (o : OutStream) (b : Bool) : (o.writeBit b).file = o.file := rfl
@[simp] theorem OutStream.close_bits (pad : Bits) (o : OutStream) : (o.close pad).bits = o.bits := rfl
@[simp] theorem OutStream.close_opened (pad : Bits) (o : OutStream) : (o.close pad).opened = false := rfl
@[simp] theorem OutStream.close_file (pad : Bits) (o : OutStream) :
    (o.close pad).file = some (packBytes (o.bits ++ pad)) := rfl

@[simp] theorem freshSession_session (s : State) : (freshSession s).session = .ready := rfl
@[simp] theorem freshSession_err (s : State) : (freshSession s).err = 0 := rfl
@[simp] theorem freshSession_errInfo (s : State) : (freshSession s).errInfo = 0 := rfl
@[simp] theorem freshSession_freq (s : State) : (freshSession s).freq = Table.filled 256 0 := rfl
@[simp] theorem freshSession_tree (s : State) : (freshSession s).tree = none := rfl
@[simp] theorem freshSession_nleaf (s : State) : (freshSession s).nleaf = 0 := rfl
@[simp] theorem freshSession_code (s : State) : (freshSession s).code = none := rfl
@[simp] theorem freshSession_decDone (s : State) : (freshSession s).decDone = false := rfl
@[simp] theorem freshSession_lkFound (s : State) : (freshSession s).lkFound = false := rfl
@[simp] theorem freshSession_lklen (s : State) : (freshSession s).lklen = 0 := rfl
@[simp] theorem freshSession_lkbits (s : State) : (freshSession s).lkbits = Table.filled 8 0 := rfl
@[simp] theorem freshSession_inp (s : State) : (freshSession s).inp = InStream.fresh (s.nextInputs.headD []) := rfl
@[simp] theorem freshSession_out (s : State) : (freshSession s).out = OutStream.fresh := rfl
@[simp] theorem freshSession_padDraws (s : State) : (freshSession s).padDraws = s.padDraws := rfl
@[simp] theorem freshSession_nextInputs (s : State) : (freshSession s).nextInputs = s.nextInputs.tail := rfl
@[simp] theorem freshSession_archive (s : State) : (freshSession s).archive = s.archive ++ [s.out] := rfl
@[simp] theorem freshSession_pending (s : State) : (freshSession s).pending = s.pending := rfl
@[simp] theorem freshSession_replies (s : State) : (freshSession s).replies = s.replies := rfl
@[simp] theorem freshSession_params (s : State) : (freshSession s).params = s.params := rfl

@[simp] theorem issueWord_pending (w : Word) (s : State) : (issueWord w s).pending = .wreg cmdReg w :: s.pending := rfl

end Sys2Proof.Machine
end

