-- ==== Sys2Proof/Laws/Bits.lean ====
section
/-! SUPPORT. What the stream operations do: `bitsN` and `val` are inverse (R11), reads take the first bits (R68), writes
append (R71), and packing loses nothing (R72). -/

namespace Sys2Proof.Machine

@[simp] theorem bitsN_length (v n : Nat) : (bitsN v n).length = n := by
  induction n with
  | zero => rfl
  | succ n ih => simp [bitsN, ih]

theorem shiftIn_lt {v n : Nat} (h : v < 2 ^ n) (b : Bool) : shiftIn v b < 2 ^ (n + 1) := by
  cases b <;> simp [shiftIn, Nat.pow_succ] <;> omega

/-- The top n+1 bits of a value, one at a time. -/
theorem shiftIn_div (v n : Nat) : shiftIn (v / 2 ^ (n + 1)) (v.testBit n) = v / 2 ^ n := by
  rw [shiftIn, Nat.testBit_eq_decide_div_mod_eq, Nat.pow_succ, ← Nat.div_div_eq_div_mul]
  rcases Nat.mod_two_eq_zero_or_one (v / 2 ^ n) with h | h <;> simp [h] <;> omega

theorem foldl_shiftIn_bitsN (v n : Nat) : (bitsN v n).foldl shiftIn (v / 2 ^ n) = v := by
  induction n with
  | zero => simp [bitsN]
  | succ n ih => rw [bitsN, List.foldl_cons, shiftIn_div, ih]

/-- `val` undoes `bitsN` on a value of n bits. -/
theorem val_bitsN {v n : Nat} (h : v < 2 ^ n) : val (bitsN v n) = v := by
  have := foldl_shiftIn_bitsN v n
  rwa [Nat.div_eq_of_lt h] at this

theorem foldl_shiftIn_lt (q : Bits) : ∀ {v n : Nat}, v < 2 ^ n → q.foldl shiftIn v < 2 ^ (n + q.length) := by
  induction q with
  | nil => intro v n h; simpa using h
  | cons b q ih =>
    intro v n h
    have := ih (shiftIn_lt h b)
    simpa [Nat.add_comm, Nat.add_left_comm, Nat.add_assoc] using this

theorem val_lt (q : Bits) : val q < 2 ^ q.length := by
  simpa [val] using foldl_shiftIn_lt q (v := 0) (n := 0) (by simp)

theorem foldl_shiftIn_eq (q : Bits) : ∀ v, q.foldl shiftIn v = v * 2 ^ q.length + val q := by
  induction q with
  | nil => intro v; simp [val]
  | cons b q ih =>
    intro v
    have hv : val (b :: q) = shiftIn 0 b * 2 ^ q.length + val q := ih (shiftIn 0 b)
    rw [List.foldl_cons, ih, hv, shiftIn, shiftIn, List.length_cons, Nat.pow_succ]
    ring

theorem val_cons (b : Bool) (q : Bits) : val (b :: q) = b.toNat * 2 ^ q.length + val q := by
  rw [val, List.foldl_cons, foldl_shiftIn_eq, shiftIn]; simp

/-- The bits of a value of `q.length` bits above a multiple of a power of two are the bits of the value. -/
theorem bitsN_add_mul (v k : Nat) : ∀ n m, n ≤ m → bitsN (k * 2 ^ m + v) n = bitsN v n := by
  intro n
  induction n with
  | zero => intro m _; rfl
  | succ n ih =>
    intro m h
    rw [bitsN, bitsN, ih m (by omega)]
    congr 1
    have hm : m = n + 1 + (m - (n + 1)) := by omega
    rw [hm, Nat.pow_add, Nat.testBit_eq_decide_div_mod_eq, Nat.testBit_eq_decide_div_mod_eq, Nat.pow_succ]
    have : k * (2 ^ n * 2 * 2 ^ (m - (n + 1))) + v = v + 2 ^ n * (2 * (k * 2 ^ (m - (n + 1)))) := by ring
    rw [this, Nat.add_mul_div_left _ _ (by positivity), Nat.add_mul_mod_self_left]

/-- `bitsN` undoes `val`. -/
theorem bitsN_val (q : Bits) : bitsN (val q) q.length = q := by
  induction q with
  | nil => rfl
  | cons b q ih =>
    rw [val_cons, List.length_cons, bitsN, bitsN_add_mul _ _ _ _ (le_refl _), ih]
    congr 1
    have h := val_lt q
    rw [Nat.testBit_eq_decide_div_mod_eq, Nat.add_comm, Nat.add_mul_div_right _ _ (by positivity), Nat.div_eq_of_lt h]
    cases b <;> simp

/-- Bit `q.length - 1 - j` of `val(q)` is `q[j]` (R11). -/
theorem val_testBit (q : Bits) : ∀ (j : Nat) (h : j < q.length), (val q).testBit (q.length - 1 - j) = q[j] := by
  induction q with
  | nil => intro j h; cases h
  | cons b q ih =>
    intro j h
    have hv := val_lt q
    rw [val_cons]
    cases j with
    | zero =>
      simp only [List.length_cons, Nat.add_sub_cancel, Nat.sub_zero, List.getElem_cons_zero]
      rw [Nat.add_comm, Nat.testBit_eq_decide_div_mod_eq, Nat.add_mul_div_right _ _ (by positivity), Nat.div_eq_of_lt hv]
      cases b <;> simp
    | succ j =>
      have hj : j < q.length := by simpa using h
      simp only [List.length_cons, Nat.add_sub_cancel, List.getElem_cons_succ]
      have e : q.length - (j + 1) = q.length - 1 - j := by omega
      have hlt : q.length - 1 - j < q.length := by omega
      rw [e, ← ih j hj, Nat.mul_comm, Nat.testBit_two_pow_mul_add _ hv, if_pos hlt]

theorem bitsN_inj {v w n : Nat} (hv : v < 2 ^ n) (hw : w < 2 ^ n) (h : bitsN v n = bitsN w n) : v = w := by
  rw [← val_bitsN hv, ← val_bitsN hw, h]

/-- The nine bits of a symbol determine it; likewise for every width. -/
theorem bitsN_toNat_inj {n : Nat} {v w : BitVec n} (h : bitsN v.toNat n = bitsN w.toNat n) : v = w :=
  BitVec.eq_of_toNat_eq (bitsN_inj v.isLt w.isLt h)

/-- A sequence of n bits is the bits of some n-bit value. -/
theorem eq_bitsN_of_length {q : Bits} {n : Nat} (h : q.length = n) : ∃ v : BitVec n, q = bitsN v.toNat n := by
  subst h
  refine ⟨BitVec.ofNat _ (val q), ?_⟩
  rw [BitVec.toNat_ofNat, Nat.mod_eq_of_lt (val_lt q), bitsN_val]

/-! ### Reads -/

@[simp] theorem InStream.readBit_cons (b : Bool) (r : Bits) (o : Bool) (d : Bits) :
    InStream.readBit ⟨b :: r, o, d⟩ = (some b, ⟨r, o, d⟩) := rfl

@[simp] theorem InStream.readBit_nil (o : Bool) (d : Bits) : InStream.readBit ⟨[], o, d⟩ = (none, ⟨[], o, d⟩) := rfl

theorem readLoop_append (q r : Bits) (o : Bool) (d : Bits) :
    ∀ v, InStream.readLoop q.length v ⟨q ++ r, o, d⟩ = (some (q.foldl shiftIn v), ⟨r, o, d⟩) := by
  induction q with
  | nil => intro v; rfl
  | cons b q ih => intro v; exact ih _

theorem readLoop_short (o : Bool) (d : Bits) :
    ∀ (n : Nat) (q : Bits) (v : Nat), q.length < n → InStream.readLoop n v ⟨q, o, d⟩ = (none, ⟨[], o, d⟩) := by
  intro n
  induction n with
  | zero => intro q v h; omega
  | succ n ih =>
    intro q v h
    cases q with
    | nil => rfl
    | cons b q => exact ih q _ (by simpa using h)

/-- `readBits(n)` on n bits and a rest (R68). -/
theorem readBits_append {n : Nat} (v : BitVec n) (r : Bits) (o : Bool) (d : Bits) :
    InStream.readBits n ⟨bitsN v.toNat n ++ r, o, d⟩ = (some v, ⟨r, o, d⟩) := by
  have h := readLoop_append (bitsN v.toNat n) r o d 0
  rw [bitsN_length] at h
  rw [InStream.readBits, h]
  have : (bitsN v.toNat n).foldl shiftIn 0 = v.toNat := val_bitsN v.isLt
  simp [this]

/-- `readBits(n)` with fewer than n bits left (R68, D24). -/
theorem readBits_short {n : Nat} {q : Bits} (h : q.length < n) (o : Bool) (d : Bits) :
    InStream.readBits n ⟨q, o, d⟩ = (none, ⟨[], o, d⟩) := by
  rw [InStream.readBits, readLoop_short o d n q 0 h]

/-- The two ways `readBits(n)` can end (R68). -/
theorem readBits_cases (n : Nat) (s : InStream) :
    (∃ (v : BitVec n) (r : Bits), s.rem = bitsN v.toNat n ++ r ∧ s.readBits n = (some v, { s with rem := r })) ∨
      (s.rem.length < n ∧ s.readBits n = (none, { s with rem := [] })) := by
  obtain ⟨q, o, d⟩ := s
  by_cases h : q.length < n
  · exact .inr ⟨h, readBits_short h o d⟩
  · obtain ⟨v, hv⟩ := eq_bitsN_of_length (q := q.take n) (n := n) (by simp; omega)
    refine .inl ⟨v, q.drop n, ?_, ?_⟩
    · rw [← hv]; exact (List.take_append_drop n q).symm
    · have := readBits_append v (q.drop n) o d
      rwa [← hv, List.take_append_drop] at this

/-! ### Writes -/

/-- `writeBits(v, n)` appends `bitsN(v, n)` (R71). -/
theorem writeBits_eq (v : Nat) : ∀ (n : Nat) (o : OutStream),
    OutStream.writeBits v n o = { o with bits := o.bits ++ bitsN v n } := by
  intro n
  induction n with
  | zero => intro o; simp [OutStream.writeBits, bitsN]
  | succ n ih => intro o; simp [OutStream.writeBits, ih, bitsN]

/-- `put(p)` appends p (R178). -/
theorem put_eq (p : Bits) : ∀ o : OutStream, o.put p = { o with bits := o.bits ++ p } := by
  induction p with
  | nil => intro o; simp [OutStream.put]
  | cons b p ih =>
    intro o
    have := ih (o.writeBit b)
    rw [OutStream.put, List.foldl_cons]
    rw [OutStream.put] at this
    rw [this]; simp

/-! ### What a loop over the streams can do to them -/

/-- `r` is `s` after some reads: bits were taken from the front and nothing else changed (R62). -/
def InStream.ConsumedTo (s r : InStream) : Prop := ∃ q, q <:+ s.rem ∧ r = { s with rem := q }

/-- `u` is `o` after some writes: bits were appended and nothing else changed (R62). -/
def OutStream.ExtendedTo (o u : OutStream) : Prop := ∃ w, u = { o with bits := o.bits ++ w }

theorem InStream.ConsumedTo.refl (s : InStream) : s.ConsumedTo s := ⟨_, List.suffix_refl _, rfl⟩

theorem InStream.ConsumedTo.trans {s r q : InStream} (h : s.ConsumedTo r) (h' : r.ConsumedTo q) : s.ConsumedTo q := by
  obtain ⟨a, ha, rfl⟩ := h
  obtain ⟨b, hb, rfl⟩ := h'
  exact ⟨b, hb.trans ha, rfl⟩

theorem OutStream.ExtendedTo.refl (o : OutStream) : o.ExtendedTo o := ⟨[], by simp⟩

theorem OutStream.ExtendedTo.trans {o u v : OutStream} (h : o.ExtendedTo u) (h' : u.ExtendedTo v) : o.ExtendedTo v := by
  obtain ⟨a, rfl⟩ := h
  obtain ⟨b, rfl⟩ := h'
  exact ⟨a ++ b, by simp⟩

theorem put_extendedTo (p : Bits) (o : OutStream) : o.ExtendedTo (o.put p) := ⟨p, put_eq p o⟩

theorem writeBits_extendedTo (v n : Nat) (o : OutStream) : o.ExtendedTo (OutStream.writeBits v n o) :=
  ⟨bitsN v n, writeBits_eq v n o⟩

theorem readBits_consumedTo (n : Nat) (s : InStream) : s.ConsumedTo (s.readBits n).2 := by
  rcases readBits_cases n s with ⟨v, r, hr, hb⟩ | ⟨_, hb⟩
  · rw [hb]; exact ⟨r, ⟨_, hr.symm⟩, rfl⟩
  · rw [hb]; exact ⟨[], List.nil_suffix, rfl⟩

/-! ### Bytes -/

/-- A whole number of bytes survives packing (R65, R72). -/
theorem fileBits_packBytes : ∀ (q : Bits), q.length % 8 = 0 → fileBits (packBytes q) = q
  | [], _ => rfl
  | [_], h | [_, _], h | [_, _, _], h | [_, _, _, _], h | [_, _, _, _, _], h | [_, _, _, _, _, _], h
  | [_, _, _, _, _, _, _], h => by simp at h
  | b7 :: b6 :: b5 :: b4 :: b3 :: b2 :: b1 :: b0 :: r, h => by
    have hr : fileBits (packBytes r) = r := fileBits_packBytes r (by simp only [List.length_cons] at h; omega)
    have hv := val_lt [b7, b6, b5, b4, b3, b2, b1, b0]
    have hb := bitsN_val [b7, b6, b5, b4, b3, b2, b1, b0]
    simp only [List.length_cons, List.length_nil] at hv hb
    rw [packBytes, fileBits, List.flatMap_cons, ← fileBits, hr, BitVec.toNat_ofNat, Nat.mod_eq_of_lt hv, hb]
    rfl

@[simp] theorem fileBits_nil : fileBits [] = [] := rfl

@[simp] theorem fileBits_cons (b : Byte) (f : List Byte) : fileBits (b :: f) = bitsN b.toNat 8 ++ fileBits f := rfl

@[simp] theorem fileBits_length (f : List Byte) : (fileBits f).length = 8 * f.length := by
  induction f with
  | nil => rfl
  | cons b f ih => simp [ih]; omega

/-- The bytes of a file survive unpacking and packing (R65, R72). -/
theorem packBytes_fileBits (f : List Byte) : packBytes (fileBits f) = f := by
  induction f with
  | nil => rfl
  | cons b f ih =>
    have hb := val_bitsN (v := b.toNat) (n := 8) b.isLt
    simp only [bitsN] at hb
    simp only [fileBits_cons, bitsN, List.cons_append, List.nil_append, packBytes, ih, hb, BitVec.ofNat_toNat,
      BitVec.setWidth_eq]

theorem padLength_lt (len : Nat) : padLength len < 8 := by unfold padLength; omega

/-- The padding is the least that completes a byte (R72). -/
theorem length_add_padLength (len : Nat) : (len + padLength len) % 8 = 0 := by unfold padLength; omega

@[simp] theorem padding_length (draws n : Nat) : (padding draws n).length = n := by simp [padding]

end Sys2Proof.Machine
end

