-- ==== Sys2Proof/Laws/Table.lean ====
section
/-! SUPPORT. Reading a table after writing it, and two tables with the same entries are equal. -/

namespace Sys2Proof.Machine

variable {α : Type} {n : Nat}

@[simp] theorem Table.get_filled (a : α) (i : Fin n) : (Table.filled n a).get i = a := by
  simp [Table.get, Table.filled]

@[simp] theorem Table.get_tabulate (f : Fin n → α) (i : Fin n) : (Table.tabulate n f).get i = f i := by
  simp [Table.get, Table.tabulate]

@[simp] theorem Table.get_set_same (t : Table α n) (i : Fin n) (a : α) : (t.set i a).get i = a := by
  simp [Table.get, Table.set]

theorem Table.get_set_other (t : Table α n) {i j : Fin n} (a : α) (h : j ≠ i) : (t.set i a).get j = t.get j := by
  have : i.val ≠ j.val := fun e => h (Fin.ext e.symm)
  simp [Table.get, Table.set, this]

/-- A table made from a function of the entry's number lists the function's values in order. -/
theorem Table.tabulate_cells (f : Nat → α) : (Table.tabulate n fun i => f i.val).cells = (List.range n).map f := by
  apply List.ext_getElem
  · simp [Table.tabulate]
  · intro k h₁ h₂; simp [Table.tabulate]

theorem Table.ext_get {t u : Table α n} (h : ∀ i, t.get i = u.get i) : t = u := by
  cases t with | mk ct lt => cases u with | mk cu lu =>
  congr 1
  apply List.ext_getElem (lt.trans lu.symm)
  intro k h₁ h₂
  exact h ⟨k, lt ▸ h₁⟩

theorem Table.get_mem (t : Table α n) (i : Fin n) : t.get i ∈ t.cells := List.getElem_mem _

theorem Table.exists_get_of_mem (t : Table α n) {a : α} (h : a ∈ t.cells) : ∃ i, t.get i = a := by
  obtain ⟨k, hk, rfl⟩ := List.getElem_of_mem h
  exact ⟨⟨k, t.len ▸ hk⟩, rfl⟩

end Sys2Proof.Machine
end

