-- ==== Sys2Proof/Laws/Ops.lean ====
section
/-! SUPPORT. One lemma for each way a shared operation can go: the checks, the release of the streams, fault entry, reset. -/

namespace Sys2Proof.Machine

@[simp] theorem andThen_next (s : State) (k : State → Host.Outcome State Fault Refusal) : andThen (.next s) k = k s := rfl
@[simp] theorem andThen_fault (r : Fault) (k : State → Host.Outcome State Fault Refusal) :
    andThen (.fault r) k = .fault r := rfl
@[simp] theorem andThen_refused (r : Refusal) (k : State → Host.Outcome State Fault Refusal) :
    andThen (.refused r) k = .refused r := rfl

theorem whenReady_ready {s : State} (h : s.session = .ready) (k : Host.Outcome State Fault Refusal) :
    whenReady s k = k := by
  simp [whenReady, h]

/-- In CLOSED and in FAULT a command is ignored (R240). -/
theorem whenReady_ended {s : State} (h : s.session ≠ .ready) (k : Host.Outcome State Fault Refusal) :
    whenReady s k = .next s := by
  unfold whenReady
  split <;> simp_all

/-- What `whenReady` can answer. -/
theorem whenReady_next {s t : State} {k : Host.Outcome State Fault Refusal} (h : whenReady s k = .next t) :
    (s.session = .ready ∧ k = .next t) ∨ (s.session ≠ .ready ∧ t = s) := by
  by_cases hs : s.session = .ready
  · exact .inl ⟨hs, by rwa [whenReady_ready hs] at h⟩
  · rw [whenReady_ended hs] at h
    exact .inr ⟨hs, by injection h with h; exact h.symm⟩

@[simp] theorem needTree_of_some {w : Word} {s : State} {t : HuffTree} {k : HuffTree → Host.Outcome State Fault Refusal}
    (h : s.tree = some t) : needTree w s k = k t := by simp [needTree, h]

@[simp] theorem needTree_of_none {w : Word} {s : State} {k : HuffTree → Host.Outcome State Fault Refusal}
    (h : s.tree = none) : needTree w s k = raise .seq w s := by simp [needTree, h]

@[simp] theorem needNoTree_of_none {w : Word} {s : State} {k : Host.Outcome State Fault Refusal}
    (h : s.tree = none) : needNoTree w s k = k := by simp [needNoTree, h]

@[simp] theorem needNoTree_of_some {w : Word} {s : State} {t : HuffTree} {k : Host.Outcome State Fault Refusal}
    (h : s.tree = some t) : needNoTree w s k = raise .seq w s := by simp [needNoTree, h]

@[simp] theorem needCode_of_some {w : Word} {s : State} {c : Table (Option Bits) 257}
    {k : Table (Option Bits) 257 → Host.Outcome State Fault Refusal}
    (h : s.code = some c) : needCode w s k = k c := by simp [needCode, h]

@[simp] theorem needCode_of_none {w : Word} {s : State} {k : Table (Option Bits) 257 → Host.Outcome State Fault Refusal}
    (h : s.code = none) : needCode w s k = raise .seq w s := by simp [needCode, h]

theorem usingIn_opened {s : State} (h : s.inp.opened = true) (k : Host.Outcome State Fault Refusal) :
    usingIn s k = k := by simp [usingIn, h]

theorem usingOut_opened {s : State} (h : s.out.opened = true) (k : Host.Outcome State Fault Refusal) :
    usingOut s k = k := by simp [usingOut, h]

theorem usingIn_next {s t : State} {k : Host.Outcome State Fault Refusal} (h : usingIn s k = .next t) :
    s.inp.opened = true ∧ k = .next t := by
  unfold usingIn at h; split at h <;> simp_all

theorem usingOut_next {s t : State} {k : Host.Outcome State Fault Refusal} (h : usingOut s k = .next t) :
    s.out.opened = true ∧ k = .next t := by
  unfold usingOut at h; split at h <;> simp_all

/-- `s` with both streams released (R72). -/
def State.released (s : State) : State :=
  { s with
    inp := s.inp.close
    out := s.out.close (padding s.padDraws (padLength s.out.bits.length))
    padDraws := s.padDraws + padLength s.out.bits.length }

theorem closeStreams_opened {s : State} (hi : s.inp.opened = true) (ho : s.out.opened = true) :
    closeStreams s = .next s.released := by simp [closeStreams, State.released, hi, ho]

theorem closeStreams_next {s t : State} (h : closeStreams s = .next t) :
    s.inp.opened = true ∧ s.out.opened = true ∧ t = s.released := by
  unfold closeStreams at h
  split at h
  · rename_i hb
    obtain ⟨hi, ho⟩ := Bool.and_eq_true_iff.mp hb
    injection h with h
    exact ⟨hi, ho, h.symm⟩
  · cases h

theorem OutStream.close_released (o : OutStream) (draws : Nat) :
    (o.close (padding draws (padLength o.bits.length))).Released :=
  ⟨rfl, _, padding_length _ _, rfl⟩

/-- The state `raise F(info)` makes of `s` (R236). -/
def State.faulted (f : HcFault) (info : Word) (s : State) : State :=
  { s.released with err := f.code, errInfo := info, session := .fault }

theorem raise_opened {s : State} (hi : s.inp.opened = true) (ho : s.out.opened = true) (f : HcFault) (info : Word) :
    raise f info s = .next (s.faulted f info) := by
  rw [raise, closeStreams_opened (s := { s with err := f.code, errInfo := info }) hi ho, andThen_next]
  rfl

theorem raise_next {f : HcFault} {info : Word} {s t : State} (h : raise f info s = .next t) :
    s.inp.opened = true ∧ s.out.opened = true ∧ t = s.faulted f info := by
  unfold raise at h
  cases hc : closeStreams { s with err := f.code, errInfo := info } with
  | next u =>
    obtain ⟨hi, ho, rfl⟩ := closeStreams_next hc
    rw [hc, andThen_next] at h
    injection h with h
    exact ⟨hi, ho, h.symm⟩
  | fault r => rw [hc] at h; cases h
  | refused r => rw [hc] at h; cases h

/-- The explicit state has every property R236 lists. -/
theorem State.faulted_entered (f : HcFault) (info : Word) (s : State) : FaultEntered f info s (s.faulted f info) where
  err := rfl
  errInfo := rfl
  session := rfl
  inClosed := rfl
  outBits := rfl
  outReleased := s.out.close_released s.padDraws
  rest := rfl

theorem resetCore_ready {s : State} (h : s.session = .ready) (hi : s.inp.opened = true) (ho : s.out.opened = true) :
    resetCore s = .next (freshSession s.released) := by
  simp [resetCore, h, closeStreams_opened hi ho]

theorem resetCore_ended {s : State} (h : s.session ≠ .ready) : resetCore s = .next (freshSession s) := by
  unfold resetCore
  split <;> simp_all

/-- What going back to reset can answer (R218). -/
theorem resetCore_next {s t : State} (h : resetCore s = .next t) :
    (s.session = .ready ∧ s.inp.opened = true ∧ s.out.opened = true ∧ t = freshSession s.released) ∨
      (s.session ≠ .ready ∧ t = freshSession s) := by
  by_cases hs : s.session = .ready
  · left
    have hc : andThen (closeStreams s) (fun u => .next (freshSession u)) = .next t := by simpa [resetCore, hs] using h
    cases hu : closeStreams s with
    | next u =>
      obtain ⟨hi, ho, rfl⟩ := closeStreams_next hu
      rw [hu, andThen_next] at hc
      injection hc with hc
      exact ⟨hs, hi, ho, hc.symm⟩
    | fault r => rw [hu] at hc; cases hc
    | refused r => rw [hu] at hc; cases hc
  · rw [resetCore_ended hs] at h
    injection h with h
    exact .inr ⟨hs, h.symm⟩

end Sys2Proof.Machine
end

