-- ==== Sys2Proof/Laws/Trees.lean ====
section
/-! SUPPORT. Counting the nodes of a tree, its serialization, and the paths to its leaves. -/

namespace Sys2Proof.Machine

theorem HuffTree.leaves_length (t : HuffTree) : t.leaves.length = t.nleaf := by
  induction t with
  | leaf s f => rfl
  | internal l r hl hr => simp [leaves, nleaf, hl, hr]

theorem HuffTree.leafRecords_map_fst (t : HuffTree) : t.leafRecords.map Prod.fst = t.leaves := by
  induction t with
  | leaf s f => rfl
  | internal l r hl hr => simp [leaves, leafRecords, hl, hr]

/-- Every Internal node has two children, so there is one leaf more (R8). -/
theorem HuffTree.nleaf_eq (t : HuffTree) : t.nleaf = t.nint + 1 := by
  induction t with
  | leaf s f => rfl
  | internal l r hl hr => simp [nleaf, nint, hl, hr]; omega

@[simp] theorem HuffTree.shape_leaves (t : HuffTree) : t.shape.leaves = t.leaves := by
  induction t with
  | leaf s f => rfl
  | internal l r hl hr => simp [shape, leaves, hl, hr]

@[simp] theorem HuffTree.shape_ser (t : HuffTree) : t.shape.ser = t.ser := by
  induction t with
  | leaf s f => rfl
  | internal l r hl hr => simp [shape, ser, hl, hr]

@[simp] theorem HuffTree.shape_shape (t : HuffTree) : t.shape.shape = t.shape := by
  induction t with
  | leaf s f => rfl
  | internal l r hl hr => simp [shape, hl, hr]

@[simp] theorem HuffTree.shape_nleaf (t : HuffTree) : t.shape.nleaf = t.nleaf := by
  induction t with
  | leaf s f => rfl
  | internal l r hl hr => simp [shape, nleaf, hl, hr]

@[simp] theorem HuffTree.shape_path (x : Sym) (t : HuffTree) : t.shape.path x = t.path x := by
  induction t with
  | leaf s f => rfl
  | internal l r hl hr => simp [shape, path, hl, hr]

/-- A legal tree has at most 257 leaves (R31). -/
theorem HuffTree.Valid.nleaf_le {t : HuffTree} (h : t.Valid) : t.nleaf ≤ 257 := by
  obtain ⟨hr, hn, _⟩ := h
  rw [← t.leaves_length]
  have hsub : t.leaves.map BitVec.toNat ⊆ List.range 257 := by
    intro k hk
    obtain ⟨x, hx, rfl⟩ := List.mem_map.mp hk
    have := hr x hx
    exact List.mem_range.mpr (by omega)
  have hnd : (t.leaves.map BitVec.toNat).Nodup := hn.map (fun a b h => BitVec.eq_of_toNat_eq h)
  simpa using (List.subperm_of_subset hnd hsub).length_le

theorem HuffTree.Valid.nint_le {t : HuffTree} (h : t.Valid) : t.nint ≤ 256 := by
  have := h.nleaf_le; have := t.nleaf_eq; omega

theorem HuffTree.Valid.shape {t : HuffTree} (h : t.Valid) : t.shape.Valid := by
  simpa [HuffTree.Valid] using h

/-- NLEAF holds the leaf count of a legal tree (R33). -/
theorem HuffTree.Valid.nleaf_toNat {t : HuffTree} (h : t.Valid) : (BitVec.ofNat 9 t.nleaf).toNat = t.nleaf := by
  have := h.nleaf_le
  rw [BitVec.toNat_ofNat]; exact Nat.mod_eq_of_lt (by omega)

/-- `emit(t)` appends `Ser(t)` (R151). -/
theorem emitTree_eq (t : HuffTree) : ∀ o : OutStream, emitTree t o = { o with bits := o.bits ++ t.ser } := by
  induction t with
  | leaf s f => intro o; simp [emitTree, writeBits_eq, HuffTree.ser]
  | internal l r hl hr => intro o; simp [emitTree, hl, hr, HuffTree.ser]

/-- The grammar tells where a tree ends (R102, R103). -/
theorem HuffTree.ser_append_inj (t : HuffTree) :
    ∀ (u : HuffTree) (q r : Bits), t.ser ++ q = u.ser ++ r → t.shape = u.shape ∧ q = r := by
  induction t with
  | leaf s f =>
    intro u q r h
    cases u with
    | leaf x g =>
      simp only [ser, List.cons_append, List.cons.injEq, true_and] at h
      obtain ⟨hb, rfl⟩ := List.append_inj h (by simp)
      rw [bitsN_toNat_inj hb]
      exact ⟨rfl, rfl⟩
    | internal l' r' => simp [ser] at h
  | internal l₁ r₁ hl hr =>
    intro u q r h
    cases u with
    | leaf x g => simp [ser] at h
    | internal l' r' =>
      simp only [ser, List.cons_append, List.cons.injEq, true_and, List.append_assoc] at h
      obtain ⟨e₁, h'⟩ := hl _ _ _ h
      obtain ⟨e₂, h''⟩ := hr _ _ _ h'
      exact ⟨by simp [shape, e₁, e₂], h''⟩

/-! ### Paths -/

theorem HuffTree.path_isSome_iff (x : Sym) (t : HuffTree) : (t.path x).isSome = true ↔ x ∈ t.leaves := by
  induction t with
  | leaf s f =>
    by_cases h : s = x
    · simp [path, leaves, h]
    · simp [path, leaves, h, Ne.symm h]
  | internal l r hl hr =>
    rw [path, leaves, List.mem_append, ← hl, ← hr]
    cases l.path x <;> cases r.path x <;> simp

theorem HuffTree.path_eq_none_iff (x : Sym) (t : HuffTree) : t.path x = none ↔ x ∉ t.leaves := by
  rw [← t.path_isSome_iff x]; cases t.path x <;> simp

/-- Following the path of a symbol leads to a leaf that holds it (R161). -/
theorem HuffTree.walk_path {x : Sym} (t : HuffTree) : ∀ {p : Bits}, t.path x = some p → ∃ f, t.walk p = some (.leaf x f) := by
  induction t with
  | leaf s f =>
    intro p h
    by_cases hs : s = x
    · simp [path, hs] at h; subst h; exact ⟨f, by simp [walk, hs]⟩
    · simp [path, hs] at h
  | internal l r hl hr =>
    intro p h
    rw [path] at h
    cases hp : l.path x with
    | some p' =>
      rw [hp] at h; simp at h; subst h
      simpa [walk] using hl hp
    | none =>
      cases hq : r.path x with
      | some q => rw [hp, hq] at h; simp at h; subst h; simpa [walk] using hr hq
      | none => rw [hp, hq] at h; simp at h

theorem HuffTree.mem_leaves_of_walk {x : Sym} {f : Nat} (t : HuffTree) :
    ∀ {p : Bits}, t.walk p = some (.leaf x f) → x ∈ t.leaves := by
  induction t with
  | leaf s g =>
    intro p h
    cases p with
    | nil => simp [walk] at h; simp [leaves, h.1]
    | cons b p => simp [walk] at h
  | internal l r hl hr =>
    intro p h
    cases p with
    | nil => simp [walk] at h
    | cons b p =>
      cases b
      · exact List.mem_append_left _ (hl (by simpa [walk] using h))
      · exact List.mem_append_right _ (hr (by simpa [walk] using h))

/-- Where no symbol is at two leaves, the way to a leaf is its symbol's path (R161). -/
theorem HuffTree.path_of_walk {x : Sym} {f : Nat} (t : HuffTree) :
    ∀ {p : Bits}, t.leaves.Nodup → t.walk p = some (.leaf x f) → t.path x = some p := by
  induction t with
  | leaf s g =>
    intro p _ h
    cases p with
    | nil => simp [walk] at h; simp [path, h.1]
    | cons b p => simp [walk] at h
  | internal l r hl hr =>
    intro p hn h
    rw [leaves, List.nodup_append'] at hn
    obtain ⟨hnl, hnr, hd⟩ := hn
    cases p with
    | nil => simp [walk] at h
    | cons b p =>
      cases b
      · rw [path, hl hnl (by simpa [walk] using h)]
      · have hw : r.walk p = some (.leaf x f) := by simpa [walk] using h
        have hx : x ∉ l.leaves := fun hx => hd hx (mem_leaves_of_walk r hw)
        rw [path, (l.path_eq_none_iff x).mpr hx, hr hnr hw]

theorem HuffTree.walk_append (t : HuffTree) : ∀ (p q : Bits), t.walk (p ++ q) = (t.walk p).bind fun u => u.walk q := by
  induction t with
  | leaf s f => intro p q; cases p <;> rfl
  | internal l r hl hr =>
    intro p q
    cases p with
    | nil => simp [walk]
    | cons b p => cases b <;> simp [walk, hl, hr]

theorem HuffTree.path_length_le (x : Sym) (t : HuffTree) : ∀ {p : Bits}, t.path x = some p → p.length ≤ t.nint := by
  induction t with
  | leaf s f =>
    intro p h
    by_cases hs : s = x
    · simp [path, hs] at h; subst h; exact Nat.zero_le _
    · simp [path, hs] at h
  | internal l r hl hr =>
    intro p h
    rw [path] at h
    cases hp : l.path x with
    | some p' => rw [hp] at h; simp at h; subst h; have := hl hp; simp [nint]; omega
    | none =>
      cases hq : r.path x with
      | some q => rw [hp, hq] at h; simp at h; subst h; have := hr hq; simp [nint]; omega
      | none => rw [hp, hq] at h; simp at h

end Sys2Proof.Machine
end

