-- ==== Sys2Proof/Laws/BuildQueue.lean ====
section
/-! SUPPORT. BUILD's queue: extraction takes the least entry (R124), merging keeps leaves and frequencies (R125), and the
leaves of the first queue are the observed symbols and EOS (R122, R123). -/

namespace Sys2Proof.Machine

/-! ### The order of the queue -/

theorem Entry.before_iff (a b : Entry) : a.before b = true ↔ a.Below b := by
  simp [Entry.before, Entry.Below]

theorem Entry.Below.asymm {a b : Entry} (h : a.Below b) : ¬ b.Below a := by
  unfold Entry.Below at *; omega

theorem Entry.Below.trans {a b c : Entry} (h : a.Below b) (h' : b.Below c) : a.Below c := by
  unfold Entry.Below at *; omega

/-- Unique sequence numbers make the order total (R124). -/
theorem Entry.below_of_not_before {a b : Entry} (h : ¬ b.before a = true) (hs : a.seq ≠ b.seq) : a.Below b := by
  rw [Entry.before_iff] at h
  unfold Entry.Below at *; omega

/-! ### Extraction -/

theorem extractMin_perm (q : List Entry) : ∀ e, ((extractMin e q).1 :: (extractMin e q).2).Perm (e :: q) := by
  induction q with
  | nil => intro e; exact List.Perm.refl _
  | cons x q ih =>
    intro e
    rw [extractMin]
    split
    · exact (List.Perm.swap _ _ _).trans ((ih x).cons e)
    · exact (List.Perm.swap _ _ _).trans (((ih e).cons x).trans (List.Perm.swap _ _ _))

theorem extractMin_length (e : Entry) (q : List Entry) : (extractMin e q).2.length = q.length := by
  have := (extractMin_perm q e).length_eq
  simpa using this

/-- Nothing that is left comes before the entry extracted, nor before its predecessor in the scan. -/
theorem extractMin_least (q : List Entry) :
    ∀ e, (∀ x ∈ (extractMin e q).2, ¬ x.Below (extractMin e q).1) ∧ ¬ e.Below (extractMin e q).1 := by
  induction q with
  | nil => intro e; exact ⟨by simp [extractMin], fun h => h.asymm h⟩
  | cons x q ih =>
    intro e
    rw [extractMin]
    split
    · rename_i hx
      rw [Entry.before_iff] at hx
      obtain ⟨h₁, h₂⟩ := ih x
      have he : ¬ e.Below (extractMin x q).1 := fun h => h₂ (hx.trans h)
      refine ⟨?_, he⟩
      intro y hy
      rcases List.mem_cons.mp hy with rfl | hy
      · exact he
      · exact h₁ y hy
    · rename_i hx
      rw [Entry.before_iff] at hx
      obtain ⟨h₁, h₂⟩ := ih e
      refine ⟨?_, h₂⟩
      intro y hy
      rcases List.mem_cons.mp hy with rfl | hy
      · intro (h : y.Below (extractMin e q).1)
        unfold Entry.Below at *; omega
      · exact h₁ y hy

/-! ### Merging -/

/-- The leaves of all the subtrees of a queue. -/
def queueLeaves (q : List Entry) : List (Sym × Nat) := q.flatMap fun e => e.tree.leafRecords

/-- The sum of the frequencies of a queue. -/
def queueFreq (q : List Entry) : Nat := (q.map Entry.freq).sum

theorem queueLeaves_perm {q r : List Entry} (h : q.Perm r) : (queueLeaves q).Perm (queueLeaves r) := h.flatMap_right _

theorem queueFreq_perm {q r : List Entry} (h : q.Perm r) : queueFreq q = queueFreq r := (h.map _).sum_eq

theorem mergeAll_cons {fuel seq : Nat} {e : Entry} {q : List Entry} {y : Entry} {ys : List Entry}
    (h : (extractMin e q).2 = y :: ys) :
    mergeAll (fuel + 1) seq e q =
      mergeAll fuel (seq + 1) ((extractMin e q).1.merge (extractMin y ys).1 seq) (extractMin y ys).2 := by
  rw [mergeAll]
  split
  · rename_i a ha; rw [ha] at h; cases h
  · rename_i a y' ys' ha
    rw [ha] at h
    injection h with h₁ h₂
    subst h₁; subst h₂
    rw [ha]

theorem mergeAll_nil (fuel seq : Nat) (e : Entry) : mergeAll (fuel + 1) seq e [] = e := rfl

/-- The loop replaces entries until one is left: it is the root of all the leaves, with the sum of the frequencies. -/
theorem mergeAll_keeps : ∀ (fuel seq : Nat) (e : Entry) (q : List Entry), q.length < fuel →
    ((mergeAll fuel seq e q).tree.leafRecords).Perm (queueLeaves (e :: q)) ∧
      (mergeAll fuel seq e q).freq = queueFreq (e :: q) := by
  intro fuel
  induction fuel with
  | zero => intro seq e q h; omega
  | succ fuel ih =>
    intro seq e q hf
    cases hq : (extractMin e q).2 with
    | nil =>
      have hl := extractMin_length e q
      rw [hq] at hl
      obtain rfl : q = [] := List.length_eq_zero_iff.mp hl.symm
      rw [mergeAll_nil]
      simp [queueLeaves, queueFreq]
    | cons y ys =>
      have hl := extractMin_length e q
      have hl' := extractMin_length y ys
      rw [hq] at hl
      have hp := extractMin_perm q e
      have hp' := extractMin_perm ys y
      rw [hq] at hp
      have hall := ((hp'.cons (extractMin e q).1).trans hp)
      rw [mergeAll_cons hq]
      obtain ⟨h₁, h₂⟩ := ih (seq + 1) ((extractMin e q).1.merge (extractMin y ys).1 seq) (extractMin y ys).2
        (by simp only [List.length_cons] at hl; omega)
      refine ⟨h₁.trans ?_, h₂.trans ?_⟩
      · refine List.Perm.trans ?_ (queueLeaves_perm hall)
        simp [queueLeaves, Entry.merge, HuffTree.leafRecords]
      · rw [← queueFreq_perm hall]
        simp [queueFreq, Entry.merge, Nat.add_assoc]

/-! ### The merge loop on any arrangement of the queue -/

/-- Sequence numbers are unique and all below the next one (R124). -/
def FreshSeq (seq : Nat) (q : List Entry) : Prop := (q.map Entry.seq).Nodup ∧ ∀ x ∈ q, x.seq < seq

theorem FreshSeq.perm {seq : Nat} {q r : List Entry} (h : FreshSeq seq q) (p : q.Perm r) : FreshSeq seq r :=
  ⟨(p.map _).nodup_iff.mp h.1, fun x hx => h.2 x (p.mem_iff.mpr hx)⟩

theorem mergeAll_mergesTo : ∀ (fuel seq : Nat) (e : Entry) (q : List Entry), q.length < fuel → FreshSeq seq (e :: q) →
    MergesTo seq (e :: q) (mergeAll fuel seq e q) := by
  intro fuel
  induction fuel with
  | zero => intro seq e q h; omega
  | succ fuel ih =>
    intro seq e q hf hs
    cases hq : (extractMin e q).2 with
    | nil =>
      have hl := extractMin_length e q
      rw [hq] at hl
      obtain rfl : q = [] := List.length_eq_zero_iff.mp hl.symm
      exact .root seq e
    | cons y ys =>
      have hl := extractMin_length e q
      have hl' := extractMin_length y ys
      rw [hq] at hl
      have hp := extractMin_perm q e
      have hp' := extractMin_perm ys y
      rw [hq] at hp
      have hall := ((hp'.cons (extractMin e q).1).trans hp)
      have hs₁ := hs.perm hp.symm
      have hs₂ := hs.perm hall.symm
      have least := (extractMin_least q e).1
      rw [hq] at least
      have least' := (extractMin_least ys y).1
      obtain ⟨hn, hlt⟩ := hs₂
      simp only [List.map_cons, List.nodup_cons, List.mem_cons, List.mem_map, not_or, not_exists, not_and] at hn
      obtain ⟨⟨hab, har⟩, hbr, hrest⟩ := hn
      rw [mergeAll_cons hq]
      refine .merge (a := (extractMin e q).1) (b := (extractMin y ys).1) (rest := (extractMin y ys).2) hall.symm ?_ ?_ ?_
      · intro x hx
        refine Entry.below_of_not_before (by rw [Entry.before_iff]; exact least x (hp'.mem_iff.mp hx)) ?_
        rcases List.mem_cons.mp hx with rfl | hx
        · exact hab
        · exact fun h => har x hx h.symm
      · intro x hx
        exact Entry.below_of_not_before (by rw [Entry.before_iff]; exact least' x hx) (fun h => hbr x hx h.symm)
      · apply ih
        · simp only [List.length_cons] at hl; omega
        · refine ⟨?_, ?_⟩
          · simp only [List.map_cons, List.nodup_cons, List.mem_map, not_exists, not_and, Entry.merge]
            exact ⟨fun x hx h => by have := hlt x (by simp [hx]); omega, hrest⟩
          · intro x hx
            rcases List.mem_cons.mp hx with rfl | hx
            · simp [Entry.merge]
            · have := hlt x (by simp [hx]); omega

/-- The arrangement of the queue does not matter (R37). -/
theorem MergesTo.perm {seq : Nat} {q r : List Entry} {e : Entry} (h : MergesTo seq q e) (p : q.Perm r) :
    MergesTo seq r e := by
  cases h with
  | root => rw [List.perm_singleton.mp p.symm]; exact .root seq e
  | merge p₁ h₁ h₂ h₃ => exact .merge (p.symm.trans p₁) h₁ h₂ h₃

/-- The loop gives one root, however the queue is arranged (R37, R124). -/
theorem MergesTo.unique {seq : Nat} {q : List Entry} {e : Entry} (h : MergesTo seq q e) :
    ∀ {r : List Entry} {e' : Entry}, q.Perm r → MergesTo seq r e' → e = e' := by
  induction h with
  | root seq e =>
    intro r e' hp h'
    cases h' with
    | root => exact List.singleton_inj.mp (List.singleton_perm_singleton.mp hp ▸ rfl)
    | merge hq => have := (hp.trans hq).length_eq; simp at this
  | @merge seq q rest a b e hq ha hb _ ih =>
    intro r e' hp h'
    cases h' with
    | root => have := (hq.symm.trans hp).length_eq; simp at this
    | merge hq' ha' hb' hm' =>
      rename_i rest' a' b'
      have hall : (a :: b :: rest).Perm (a' :: b' :: rest') := (hq.symm.trans hp).trans hq'
      have haa : a = a' := by
        by_contra hne
        have h₁ : a ∈ b' :: rest' := by
          rcases List.mem_cons.mp (hall.subset List.mem_cons_self) with h | h
          · exact absurd h hne
          · exact h
        have h₂ : a' ∈ b :: rest := by
          rcases List.mem_cons.mp (hall.symm.subset List.mem_cons_self) with h | h
          · exact absurd h.symm hne
          · exact h
        exact (ha a' h₂).asymm (ha' a h₁)
      subst haa
      have hrest : (b :: rest).Perm (b' :: rest') := hall.cons_inv
      have hbb : b = b' := by
        by_contra hne
        have h₁ : b ∈ rest' := by
          rcases List.mem_cons.mp (hrest.subset List.mem_cons_self) with h | h
          · exact absurd h hne
          · exact h
        have h₂ : b' ∈ rest := by
          rcases List.mem_cons.mp (hrest.symm.subset List.mem_cons_self) with h | h
          · exact absurd h.symm hne
          · exact h
        exact (hb b' h₂).asymm (hb' b h₁)
      subst hbb
      exact ih (hrest.cons_inv.cons _) hm'

/-! ### The first queue -/

theorem byteLeaves_zero {c : Word} (h : c = 0) (cs : List Word) (s seq : Nat) :
    byteLeaves s seq (c :: cs) = byteLeaves (s + 1) seq cs := by rw [byteLeaves, if_pos h]

theorem byteLeaves_pos {c : Word} (h : c ≠ 0) (cs : List Word) (s seq : Nat) :
    byteLeaves s seq (c :: cs) =
      { freq := c.toNat, seq := seq, tree := .leaf (BitVec.ofNat 9 s) c.toNat } :: byteLeaves (s + 1) (seq + 1) cs := by
  rw [byteLeaves, if_neg h]

theorem byteLeaves_length (cs : List Word) : ∀ s seq, (byteLeaves s seq cs).length = (cs.filter (· ≠ 0)).length := by
  induction cs with
  | nil => intro s seq; rfl
  | cons c cs ih =>
    intro s seq
    by_cases h : c = 0
    · rw [byteLeaves_zero h, List.filter_cons_of_neg (by simpa using h)]
      exact ih _ _
    · rw [byteLeaves_pos h, List.filter_cons_of_pos (by simpa using h), List.length_cons, List.length_cons, ih]

theorem byteLeaves_seq (cs : List Word) : ∀ s seq,
    (byteLeaves s seq cs).map Entry.seq = List.range' seq (byteLeaves s seq cs).length := by
  induction cs with
  | nil => intro s seq; rfl
  | cons c cs ih =>
    intro s seq
    by_cases h : c = 0
    · rw [byteLeaves_zero h]; exact ih _ _
    · rw [byteLeaves_pos h, List.map_cons, ih, List.length_cons, List.range'_succ]

theorem byteLeaves_freq (cs : List Word) : ∀ s seq,
    queueFreq (byteLeaves s seq cs) = (cs.map BitVec.toNat).sum := by
  induction cs with
  | nil => intro s seq; rfl
  | cons c cs ih =>
    intro s seq
    by_cases h : c = 0
    · rw [byteLeaves_zero h, ih]; simp [h]
    · have := ih (s + 1) (seq + 1)
      rw [queueFreq] at this
      rw [byteLeaves_pos h, queueFreq, List.map_cons, List.sum_cons, this, List.map_cons, List.sum_cons]

/-- The byte leaves are the entries of FREQ that are not 0 (R122). -/
theorem mem_byteLeaves (cs : List Word) : ∀ (s seq : Nat) (x : Sym) (f : Nat),
    (x, f) ∈ queueLeaves (byteLeaves s seq cs) ↔
      ∃ (k : Nat) (c : Word), cs[k]? = some c ∧ x = BitVec.ofNat 9 (s + k) ∧ f = c.toNat ∧ c ≠ 0 := by
  induction cs with
  | nil => intro s seq x f; simp [byteLeaves, queueLeaves]
  | cons c cs ih =>
    intro s seq x f
    have step : (∃ (k : Nat) (c' : Word), (c :: cs)[k]? = some c' ∧ x = BitVec.ofNat 9 (s + k) ∧ f = c'.toNat ∧ c' ≠ 0) ↔
        (x = BitVec.ofNat 9 s ∧ f = c.toNat ∧ c ≠ 0) ∨
        ∃ (k : Nat) (c' : Word), cs[k]? = some c' ∧ x = BitVec.ofNat 9 (s + 1 + k) ∧ f = c'.toNat ∧ c' ≠ 0 := by
      constructor
      · rintro ⟨k, c', hk, hx, hf, hc⟩
        cases k with
        | zero => simp only [List.getElem?_cons_zero, Option.some.injEq] at hk; subst hk; exact .inl ⟨hx, hf, hc⟩
        | succ k => exact .inr ⟨k, c', by simpa using hk, by rw [hx]; congr 1; omega, hf, hc⟩
      · rintro (⟨hx, hf, hc⟩ | ⟨k, c', hk, hx, hf, hc⟩)
        · exact ⟨0, c, by simp, hx, hf, hc⟩
        · exact ⟨k + 1, c', by simpa using hk, by rw [hx]; congr 1; omega, hf, hc⟩
    rw [step]
    by_cases h : c = 0
    · rw [byteLeaves_zero h, ih]
      exact ⟨.inr, fun hh => hh.resolve_left fun hx => hx.2.2 h⟩
    · rw [byteLeaves_pos h]
      simp only [queueLeaves, List.flatMap_cons, List.mem_append, HuffTree.leafRecords, List.mem_singleton, Prod.mk.injEq]
      have := ih (s + 1) (seq + 1) x f
      simp only [queueLeaves] at this
      rw [this]
      exact or_congr_left ⟨fun hx => ⟨hx.1, hx.2, h⟩, fun hx => ⟨hx.1, hx.2.1⟩⟩

/-- Their symbols rise, so no symbol is at two leaves (R122). -/
theorem byteLeaves_nodup (cs : List Word) : ∀ s seq, s + cs.length ≤ 256 →
    ((queueLeaves (byteLeaves s seq cs)).map Prod.fst).Nodup := by
  induction cs with
  | nil => intro s seq _; simp [byteLeaves, queueLeaves]
  | cons c cs ih =>
    intro s seq hl
    simp only [List.length_cons] at hl
    by_cases h : c = 0
    · rw [byteLeaves, if_pos h]; exact ih (s + 1) seq (by omega)
    · rw [byteLeaves, if_neg h]
      simp only [queueLeaves, List.flatMap_cons, HuffTree.leafRecords, List.singleton_append, List.map_cons, List.nodup_cons]
      refine ⟨?_, ih (s + 1) (seq + 1) (by omega)⟩
      intro hm
      obtain ⟨⟨x, f⟩, hxf, hx⟩ := List.mem_map.mp hm
      obtain ⟨k, c', hk, hx', _, _⟩ := (mem_byteLeaves cs (s + 1) (seq + 1) x f).mp hxf
      have hkl : k < cs.length := by
        by_contra hge
        rw [List.getElem?_eq_none (by omega)] at hk
        cases hk
      simp only at hx
      have := congrArg BitVec.toNat (hx.symm.trans hx')
      simp only [BitVec.toNat_ofNat] at this
      omega

end Sys2Proof.Machine
end

