-- ==== Sys2Proof/Laws/Engines.lean ====
section
/-! SUPPORT. What the loops of ENCODE and DECODE do on a stream (R176 to R198). -/

namespace Sys2Proof.Machine

variable {o oo : Bool} {dr : Bits} {fl : Option (List Byte)}

/-! ### The table -/

theorem codeOfByte_codeTable (t : HuffTree) (b : Byte) : codeOfByte (codeTable t) b = t.path (b.setWidth 9) := by
  rw [codeOfByte, codeTable, Table.get_tabulate, BitVec.ofNat_toNat]

theorem codeOfEos_codeTable (t : HuffTree) : codeOfEos (codeTable t) = t.path 256 := by
  rw [codeOfEos, codeTable, Table.get_tabulate]
  rfl

theorem tableCodesOf_codeTable (t : HuffTree) (bytes : List Byte) : tableCodesOf (codeTable t) bytes = codesOf t bytes := by
  simp only [tableCodesOf, codesOf, codeOfByte_codeTable]

/-! ### ENCODE -/

/-- The byte loop on bytes that all have codes: they are written, and the loop goes on at the rest. -/
theorem encodeLoop_bytes (c : Table (Option Bits) 257) (rest : Bits) : ∀ (bytes : List Byte) (fuel : Nat) (w : Bits),
    (∀ b ∈ bytes, (codeOfByte c b).isSome = true) →
    encodeLoop c (bytes.length + fuel) ⟨fileBits bytes ++ rest, o, dr⟩ ⟨w, oo, fl⟩ =
      encodeLoop c fuel ⟨rest, o, dr⟩ ⟨w ++ tableCodesOf c bytes, oo, fl⟩ := by
  intro bytes
  induction bytes with
  | nil => intro fuel w _; simp [tableCodesOf]
  | cons b bytes ih =>
    intro fuel w h
    obtain ⟨p, hp⟩ := Option.isSome_iff_exists.mp (h b (by simp))
    have e : (b :: bytes).length + fuel = (bytes.length + fuel) + 1 := by simp; omega
    rw [e, fileBits_cons, List.append_assoc, encodeLoop, readBits_append]
    simp only [hp, put_eq]
    rw [ih fuel (w ++ p) (fun b' hb => h b' (List.mem_cons_of_mem _ hb))]
    simp [tableCodesOf, hp]

/-- ENCODE's loop to the end of an input whose bytes all have codes (R182). -/
theorem encodeLoop_finished (c : Table (Option Bits) 257) (bytes : List Byte) (odd eosCode w : Bits) {n : Nat}
    (hn : bytes.length < n) (ho : odd.length < 8) (h : ∀ b ∈ bytes, (codeOfByte c b).isSome = true)
    (he : codeOfEos c = some eosCode) :
    encodeLoop c n ⟨fileBits bytes ++ odd, o, dr⟩ ⟨w, oo, fl⟩ =
      .finished ⟨[], o, dr⟩ ⟨w ++ (tableCodesOf c bytes ++ eosCode), oo, fl⟩ := by
  obtain ⟨k, rfl⟩ : ∃ k, n = bytes.length + (k + 1) := ⟨n - bytes.length - 1, by omega⟩
  rw [encodeLoop_bytes c odd bytes (k + 1) w h, encodeLoop, readBits_short ho]
  simp only [encodeFinish, he, put_eq, List.append_assoc]

/-- ENCODE's loop to the first byte without a code (R179). -/
theorem encodeLoop_notFound (c : Table (Option Bits) 257) (bytes : List Byte) (v : Byte) (rest w : Bits) {n : Nat}
    (hn : bytes.length < n) (h : ∀ b ∈ bytes, (codeOfByte c b).isSome = true) (hv : codeOfByte c v = none) :
    encodeLoop c n ⟨fileBits bytes ++ (bitsN v.toNat 8 ++ rest), o, dr⟩ ⟨w, oo, fl⟩ =
      .notFound v ⟨rest, o, dr⟩ ⟨w ++ tableCodesOf c bytes, oo, fl⟩ := by
  obtain ⟨k, rfl⟩ : ∃ k, n = bytes.length + (k + 1) := ⟨n - bytes.length - 1, by omega⟩
  rw [encodeLoop_bytes c _ bytes (k + 1) w h, encodeLoop, readBits_append]
  simp only [hv]

/-- What ENCODE's loop can do: it ends or stops at a byte without a code, IN is only consumed and OUT only grows; only
without a code for EOS may it find no terminator (R176). -/
theorem encodeLoop_cases (c : Table (Option Bits) 257) : ∀ (fuel : Nat) (inp : InStream) (out : OutStream),
    (∃ r u, encodeLoop c fuel inp out = .finished r u ∧ inp.ConsumedTo r ∧ out.ExtendedTo u) ∨
    (∃ v r u, encodeLoop c fuel inp out = .notFound v r u ∧ inp.ConsumedTo r ∧ out.ExtendedTo u) ∨
    (encodeLoop c fuel inp out = .noTerminator ∧ codeOfEos c = none) := by
  have fin : ∀ (inp r : InStream) (out : OutStream), inp.ConsumedTo r →
      (∃ r' u, encodeFinish c r out = .finished r' u ∧ inp.ConsumedTo r' ∧ out.ExtendedTo u) ∨
      (∃ v r' u, encodeFinish c r out = .notFound v r' u ∧ inp.ConsumedTo r' ∧ out.ExtendedTo u) ∨
      (encodeFinish c r out = .noTerminator ∧ codeOfEos c = none) := by
    intro inp r out hr
    unfold encodeFinish
    cases he : codeOfEos c with
    | none => exact .inr (.inr ⟨rfl, rfl⟩)
    | some p => exact .inl ⟨r, _, rfl, hr, put_extendedTo p out⟩
  intro fuel
  induction fuel with
  | zero => intro inp out; exact fin inp inp out (.refl inp)
  | succ fuel ih =>
    intro inp out
    have hread := readBits_consumedTo 8 inp
    rw [encodeLoop]
    cases hb : inp.readBits 8 with
    | mk v r =>
      rw [hb] at hread
      cases v with
      | none => exact fin inp r out hread
      | some v =>
        simp only
        cases hc : codeOfByte c v with
        | none => exact .inr (.inl ⟨v, r, out, rfl, hread, .refl out⟩)
        | some p =>
          rcases ih r (out.put p) with ⟨r', u, he, hr, hu⟩ | ⟨v', r', u, he, hr, hu⟩ | h
          · exact .inl ⟨r', u, he, hread.trans hr, (put_extendedTo p out).trans hu⟩
          · exact .inr (.inl ⟨v', r', u, he, hread.trans hr, (put_extendedTo p out).trans hu⟩)
          · exact .inr (.inr h)

/-! ### DECODE -/

theorem decodeStep_internal {root cur : Children} {b : Bool} {l r : HuffTree}
    (h : (if b then cur.right else cur.left) = .internal l r) (q w : Bits) :
    decodeStep root ⟨cur, ⟨b :: q, o, dr⟩, ⟨w, oo, fl⟩⟩ = .more ⟨⟨l, r⟩, ⟨q, o, dr⟩, ⟨w, oo, fl⟩⟩ := by
  simp only [decodeStep, InStream.readBit_cons, h]

theorem decodeStep_leaf {root cur : Children} {b : Bool} {x : Sym} {f : Nat}
    (h : (if b then cur.right else cur.left) = .leaf x f) (q w : Bits) :
    decodeStep root ⟨cur, ⟨b :: q, o, dr⟩, ⟨w, oo, fl⟩⟩ =
      if x = 256 then .ended (.finished ⟨q, o, dr⟩ ⟨w, oo, fl⟩)
      else .more ⟨root, ⟨q, o, dr⟩, ⟨w ++ bitsN x.toNat 8, oo, fl⟩⟩ := by
  simp only [decodeStep, InStream.readBit_cons, h, Config.eos, writeBits_eq]

/-- The walk over a code that leads from CUR to the leaf of `x` (R193). -/
theorem decodeRun_code (root : Children) {x : Sym} {f : Nat} : ∀ (p : Bits) (cur : Children) (fuel : Nat) (q w : Bits),
    (HuffTree.internal cur.left cur.right).walk p = some (.leaf x f) →
    decodeRun root (p.length + fuel) ⟨cur, ⟨p ++ q, o, dr⟩, ⟨w, oo, fl⟩⟩ =
      if x = 256 then .finished ⟨q, o, dr⟩ ⟨w, oo, fl⟩
      else decodeRun root fuel ⟨root, ⟨q, o, dr⟩, ⟨w ++ bitsN x.toNat 8, oo, fl⟩⟩ := by
  intro p
  induction p with
  | nil => intro cur fuel q w h; simp [HuffTree.walk] at h
  | cons b p ih =>
    intro cur fuel q w h
    rw [HuffTree.walk] at h
    have e : (b :: p).length + fuel = (p.length + fuel) + 1 := by simp; omega
    rw [e, decodeRun, List.cons_append]
    cases hc : (if b then cur.right else cur.left) with
    | leaf y g =>
      rw [hc] at h
      cases p with
      | cons b' p' => simp [HuffTree.walk] at h
      | nil =>
        simp [HuffTree.walk] at h
        obtain ⟨rfl, rfl⟩ := h
        rw [decodeStep_leaf hc]
        by_cases hx : y = 256
        · rw [if_pos hx, if_pos hx]; rfl
        · rw [if_neg hx, if_neg hx, List.length_nil, Nat.zero_add, List.nil_append]
    | internal l r =>
      rw [hc] at h
      rw [decodeStep_internal hc]
      exact ih ⟨l, r⟩ fuel q w h

/-- The walk over bits that end inside a code: CUR is left at an Internal node and IN is at its end (R194). -/
theorem decodeRun_truncated (root : Children) : ∀ (q : Bits) (cur : Children) (fuel : Nat) (w : Bits) (l r : HuffTree),
    (HuffTree.internal cur.left cur.right).walk q = some (.internal l r) → q.length < fuel →
    decodeRun root fuel ⟨cur, ⟨q, o, dr⟩, ⟨w, oo, fl⟩⟩ = .truncated ⟨[], o, dr⟩ ⟨w, oo, fl⟩ := by
  intro q
  induction q with
  | nil =>
    intro cur fuel w l r _ hf
    obtain ⟨fuel, rfl⟩ : ∃ k, fuel = k + 1 := ⟨fuel - 1, by simp at hf; omega⟩
    rfl
  | cons b q ih =>
    intro cur fuel w l r h hf
    obtain ⟨fuel, rfl⟩ : ∃ k, fuel = k + 1 := ⟨fuel - 1, by omega⟩
    rw [HuffTree.walk] at h
    cases hc : (if b then cur.right else cur.left) with
    | leaf y g => rw [hc] at h; cases q <;> simp [HuffTree.walk] at h
    | internal l' r' =>
      rw [hc] at h
      rw [decodeRun, decodeStep_internal hc]
      exact ih ⟨l', r'⟩ fuel w l r h (by simpa using hf)

/-- The bytes whose codes stand on IN are written, and the machine is back at the root (R198). -/
theorem decodeRun_bytes {l r : HuffTree} (rest : Bits) : ∀ (bytes : List Byte) (fuel : Nat) (w : Bits),
    (∀ b ∈ bytes, ((HuffTree.internal l r).path (b.setWidth 9)).isSome = true) →
    decodeRun ⟨l, r⟩ ((codesOf (.internal l r) bytes).length + fuel)
        ⟨⟨l, r⟩, ⟨codesOf (.internal l r) bytes ++ rest, o, dr⟩, ⟨w, oo, fl⟩⟩ =
      decodeRun ⟨l, r⟩ fuel ⟨⟨l, r⟩, ⟨rest, o, dr⟩, ⟨w ++ fileBits bytes, oo, fl⟩⟩ := by
  intro bytes
  induction bytes with
  | nil => intro fuel w _; simp [codesOf]
  | cons b bytes ih =>
    intro fuel w h
    obtain ⟨p, hp⟩ := Option.isSome_iff_exists.mp (h b (by simp))
    obtain ⟨f, hw⟩ := HuffTree.walk_path _ hp
    have hc : codesOf (.internal l r) (b :: bytes) = p ++ codesOf (.internal l r) bytes := by
      simp [codesOf, hp]
    have hb : (b.setWidth 9).toNat = b.toNat := by
      rw [BitVec.toNat_setWidth]; exact Nat.mod_eq_of_lt (by have := b.isLt; omega)
    have hne : b.setWidth 9 ≠ (256 : Sym) := by
      intro e
      have := congrArg BitVec.toNat e
      rw [hb] at this
      have := b.isLt
      simp at *; omega
    rw [hc, List.length_append, Nat.add_assoc, List.append_assoc,
      decodeRun_code ⟨l, r⟩ p ⟨l, r⟩ _ _ w hw, if_neg hne, hb,
      ih fuel _ (fun b' hb' => h b' (List.mem_cons_of_mem _ hb'))]
    simp

/-- The whole walk over the codes of `bytes` and the code of EOS (R198). -/
theorem decodeRun_finished {l r : HuffTree} {bytes : List Byte} {eosCode : Bits} (rest w : Bits) {n : Nat}
    (h : ∀ b ∈ bytes, ((HuffTree.internal l r).path (b.setWidth 9)).isSome = true)
    (he : (HuffTree.internal l r).path 256 = some eosCode)
    (hn : (codesOf (.internal l r) bytes ++ (eosCode ++ rest)).length < n) :
    decodeRun ⟨l, r⟩ n ⟨⟨l, r⟩, ⟨codesOf (.internal l r) bytes ++ (eosCode ++ rest), o, dr⟩, ⟨w, oo, fl⟩⟩ =
      .finished ⟨rest, o, dr⟩ ⟨w ++ fileBits bytes, oo, fl⟩ := by
  obtain ⟨f, hw⟩ := HuffTree.walk_path _ he
  simp only [List.length_append] at hn
  obtain ⟨k, rfl⟩ : ∃ k, n = (codesOf (.internal l r) bytes).length + (eosCode.length + k) :=
    ⟨n - (codesOf (.internal l r) bytes).length - eosCode.length, by omega⟩
  rw [decodeRun_bytes _ _ _ _ h, decodeRun_code ⟨l, r⟩ eosCode ⟨l, r⟩ k rest _ hw, if_pos rfl]

/-- The whole walk over the codes of `bytes` and the beginning of another code (R194). -/
theorem decodeRun_cutOff {l r : HuffTree} {bytes : List Byte} {x : Sym} {q z : Bits} (w : Bits) {n : Nat}
    (h : ∀ b ∈ bytes, ((HuffTree.internal l r).path (b.setWidth 9)).isSome = true)
    (hx : (HuffTree.internal l r).path x = some (q ++ z)) (hz : z ≠ [])
    (hn : (codesOf (.internal l r) bytes ++ q).length < n) :
    decodeRun ⟨l, r⟩ n ⟨⟨l, r⟩, ⟨codesOf (.internal l r) bytes ++ q, o, dr⟩, ⟨w, oo, fl⟩⟩ =
      .truncated ⟨[], o, dr⟩ ⟨w ++ fileBits bytes, oo, fl⟩ := by
  obtain ⟨f, hw⟩ := HuffTree.walk_path _ hx
  simp only [List.length_append] at hn
  obtain ⟨k, rfl⟩ : ∃ k, n = (codesOf (.internal l r) bytes).length + k :=
    ⟨n - (codesOf (.internal l r) bytes).length, by omega⟩
  rw [decodeRun_bytes _ _ _ _ h]
  rw [HuffTree.walk_append] at hw
  cases hh : (HuffTree.internal l r).walk q with
  | none => rw [hh] at hw; cases hw
  | some u =>
    rw [hh] at hw
    cases u with
    | leaf a b =>
      cases z with
      | nil => exact absurd rfl hz
      | cons => simp [HuffTree.walk] at hw
    | internal a b => exact decodeRun_truncated _ q ⟨l, r⟩ k _ a b hh (by omega)

/-- What DECODE's walk can do: it ends at EOS or at the end of IN, IN is only consumed and OUT only grows (R192). -/
theorem decodeRun_cases (root : Children) : ∀ (fuel : Nat) (c : DecodeConfig),
    ∃ r u, (decodeRun root fuel c = .finished r u ∨ decodeRun root fuel c = .truncated r u) ∧
      c.inp.ConsumedTo r ∧ c.out.ExtendedTo u := by
  intro fuel
  induction fuel with
  | zero => intro c; exact ⟨c.inp, c.out, .inr rfl, .refl _, .refl _⟩
  | succ fuel ih =>
    intro c
    obtain ⟨cur, ⟨q, o, dr⟩, ⟨w, oo, fl⟩⟩ := c
    rw [decodeRun]
    cases q with
    | nil => exact ⟨⟨[], o, dr⟩, ⟨w, oo, fl⟩, .inr rfl, .refl _, .refl _⟩
    | cons b q =>
      have hread : InStream.ConsumedTo ⟨b :: q, o, dr⟩ ⟨q, o, dr⟩ := ⟨q, List.suffix_cons b q, rfl⟩
      cases hc : (if b then cur.right else cur.left) with
      | internal l r =>
        rw [decodeStep_internal hc]
        obtain ⟨r', u, he, hr, hu⟩ := ih ⟨⟨l, r⟩, ⟨q, o, dr⟩, ⟨w, oo, fl⟩⟩
        exact ⟨r', u, he, hread.trans hr, hu⟩
      | leaf x f =>
        rw [decodeStep_leaf hc]
        by_cases hx : x = 256
        · rw [if_pos hx]
          exact ⟨⟨q, o, dr⟩, ⟨w, oo, fl⟩, .inl rfl, hread, .refl _⟩
        · rw [if_neg hx]
          obtain ⟨r, u, he, hr, hu⟩ := ih ⟨root, ⟨q, o, dr⟩, ⟨w ++ bitsN x.toNat 8, oo, fl⟩⟩
          exact ⟨r, u, he, hread.trans hr, OutStream.ExtendedTo.trans ⟨_, rfl⟩ hu⟩

end Sys2Proof.Machine
end

