-- ==== Sys2Proof/Laws/Parse.lean ====
section
/-! SUPPORT. What DESER's descent does on a stream: it reads back a serialized tree, accepts nothing else, and reports a
cut-off stream and the first defective record (R136 to R146). -/

namespace Sys2Proof.Machine

variable {o : Bool} {dr : Bits}

/-! ### One leaf record -/

theorem parseLeaf_bits (v : Sym) (r : Bits) (ni nl : Nat) (seen : List Sym) :
    parseLeaf ⟨⟨bitsN v.toNat 9 ++ r, o, dr⟩, ni, nl, seen⟩ =
      if 256 < v.toNat then .error ⟨.treeSym, v.setWidth 32, ⟨⟨r, o, dr⟩, ni, nl, seen⟩⟩
      else if v ∈ seen then .error ⟨.treeDup, v.setWidth 32, ⟨⟨r, o, dr⟩, ni, nl, seen⟩⟩
      else .ok (.leaf v 0, ⟨⟨r, o, dr⟩, ni, nl + 1, v :: seen⟩) := by
  simp only [parseLeaf, readBits_append]

theorem parseLeaf_short {q : Bits} (h : q.length < 9) (ni nl : Nat) (seen : List Sym) :
    parseLeaf ⟨⟨q, o, dr⟩, ni, nl, seen⟩ = .error ⟨.treeEof, 0, ⟨⟨[], o, dr⟩, ni, nl, seen⟩⟩ := by
  simp only [parseLeaf, readBits_short h]

theorem parseNode_leafBits (fuel : Nat) (v : Sym) (r : Bits) (ni nl : Nat) (seen : List Sym) :
    parseNode (fuel + 1) ⟨⟨false :: (bitsN v.toNat 9 ++ r), o, dr⟩, ni, nl, seen⟩ =
      parseLeaf ⟨⟨bitsN v.toNat 9 ++ r, o, dr⟩, ni, nl, seen⟩ := rfl

theorem parseNode_internal {fuel ni : Nat} (h : ni ≠ 256) (r : Bits) (nl : Nat) (seen : List Sym) :
    parseNode (fuel + 1) ⟨⟨true :: r, o, dr⟩, ni, nl, seen⟩ =
      match parseNode fuel ⟨⟨r, o, dr⟩, ni + 1, nl, seen⟩ with
      | .error e => .error e
      | .ok (left, d₁) =>
        match parseNode fuel d₁ with
        | .error e => .error e
        | .ok (right, d₂) => .ok (.internal left right, d₂) :=
  if_neg h

/-! ### Whole trees -/

/-- DESER reads back what SER wrote (R146). -/
theorem parseNode_ser (t : HuffTree) : ∀ (fuel : Nat) (rest : Bits) (ni nl : Nat) (seen : List Sym),
    t.ser.length ≤ fuel → ni + t.nint ≤ 256 → (∀ x ∈ t.leaves, x.toNat ≤ 256) → t.leaves.Nodup →
    (∀ x ∈ t.leaves, x ∉ seen) →
    parseNode fuel ⟨⟨t.ser ++ rest, o, dr⟩, ni, nl, seen⟩ =
      .ok (t.shape, ⟨⟨rest, o, dr⟩, ni + t.nint, nl + t.nleaf, t.leaves.reverse ++ seen⟩) := by
  induction t with
  | leaf v f =>
    intro fuel rest ni nl seen hf _ hr _ hs
    cases fuel with
    | zero => simp [HuffTree.ser] at hf
    | succ fuel =>
      have hv : ¬ 256 < v.toNat := by have := hr v (by simp [HuffTree.leaves]); omega
      have hm : v ∉ seen := hs v (by simp [HuffTree.leaves])
      rw [HuffTree.ser, List.cons_append, parseNode_leafBits, parseLeaf_bits, if_neg hv, if_neg hm]
      rfl
  | internal l r hl hr =>
    intro fuel rest ni nl seen hf hn hb hd hs
    cases fuel with
    | zero => simp [HuffTree.ser] at hf
    | succ fuel =>
      simp only [HuffTree.ser, List.length_cons, List.length_append] at hf
      simp only [HuffTree.nint] at hn
      rw [HuffTree.leaves, List.nodup_append'] at hd
      obtain ⟨hdl, hdr, hdis⟩ := hd
      have hbl : ∀ x ∈ l.leaves, x.toNat ≤ 256 := fun x hx => hb x (List.mem_append_left _ hx)
      have hbr : ∀ x ∈ r.leaves, x.toNat ≤ 256 := fun x hx => hb x (List.mem_append_right _ hx)
      have hsl : ∀ x ∈ l.leaves, x ∉ seen := fun x hx => hs x (List.mem_append_left _ hx)
      have hsr : ∀ x ∈ r.leaves, x ∉ l.leaves.reverse ++ seen := by
        intro x hx hm
        rcases List.mem_append.mp hm with hm | hm
        · exact hdis (List.mem_reverse.mp hm) hx
        · exact hs x (List.mem_append_right _ hx) hm
      rw [HuffTree.ser, List.cons_append, List.append_assoc, parseNode_internal (by omega),
        hl fuel (r.ser ++ rest) (ni + 1) nl seen (by omega) (by omega) hbl hdl hsl]
      simp only
      rw [hr fuel rest _ _ _ (by omega) (by omega) hbr hdr hsr]
      simp [HuffTree.shape, HuffTree.nint, HuffTree.nleaf, HuffTree.leaves]
      omega

/-- What a successful descent has read and recorded (R145). -/
structure ParsedAs (d : ParseState) (t : HuffTree) (d' : ParseState) : Prop where
  noFreq : t.shape = t
  stream : d.inp = { d'.inp with rem := t.ser ++ d'.inp.rem }
  ni : d'.ni = d.ni + t.nint
  nl : d'.nl = d.nl + t.nleaf
  seen : d'.seen = t.leaves.reverse ++ d.seen
  inRange : ∀ x ∈ t.leaves, x.toNat ≤ 256
  nodup : d.seen.Nodup → d'.seen.Nodup

theorem parseLeaf_ok {d d' : ParseState} {t : HuffTree} (h : parseLeaf d = .ok (t, d')) :
    ∃ v : Sym, t = .leaf v 0 ∧ d.inp = { d'.inp with rem := bitsN v.toNat 9 ++ d'.inp.rem } ∧ v.toNat ≤ 256 ∧
      v ∉ d.seen ∧ d' = { d with inp := d'.inp, nl := d.nl + 1, seen := v :: d.seen } := by
  obtain ⟨⟨q, o, dr⟩, ni, nl, seen⟩ := d
  rcases readBits_cases 9 ⟨q, o, dr⟩ with ⟨v, r, hq, hb⟩ | ⟨hlen, _⟩
  · simp only at hq; subst hq
    rw [parseLeaf_bits] at h
    split at h
    · cases h
    · split at h
      · cases h
      · injection h with h; injection h with h₁ h₂; subst h₁; subst h₂
        exact ⟨v, rfl, rfl, by omega, by assumption, rfl⟩
  · rw [parseLeaf_short hlen] at h; cases h

theorem parseNode_ok : ∀ (fuel : Nat) (d : ParseState) (t : HuffTree) (d' : ParseState),
    parseNode fuel d = .ok (t, d') → ParsedAs d t d' := by
  intro fuel
  induction fuel with
  | zero => intro d t d' h; cases h
  | succ fuel ih =>
    intro d t d' h
    obtain ⟨⟨q, o, dr⟩, ni, nl, seen⟩ := d
    cases q with
    | nil => cases h
    | cons b q =>
      cases b
      · have h' : parseLeaf ⟨⟨q, o, dr⟩, ni, nl, seen⟩ = .ok (t, d') := h
        obtain ⟨v, rfl, hs, hv, hm, hd⟩ := parseLeaf_ok h'
        obtain ⟨⟨q', o', dr'⟩, ni', nl', seen'⟩ := d'
        simp only [InStream.mk.injEq, ParseState.mk.injEq, true_and] at hs hd
        obtain ⟨rfl, rfl, rfl⟩ := hs
        obtain ⟨rfl, rfl, rfl⟩ := hd
        exact ⟨rfl, rfl, rfl, rfl, rfl, by simpa [HuffTree.leaves] using hv,
          fun hn => List.nodup_cons.mpr ⟨hm, hn⟩⟩
      · by_cases hni : ni = 256
        · subst hni; cases h
        · rw [parseNode_internal hni] at h
          cases hl : parseNode fuel ⟨⟨q, o, dr⟩, ni + 1, nl, seen⟩ with
          | error e => rw [hl] at h; cases h
          | ok a =>
            obtain ⟨l, d₁⟩ := a
            rw [hl] at h; simp only at h
            cases hr : parseNode fuel d₁ with
            | error e => rw [hr] at h; cases h
            | ok b =>
              obtain ⟨r, d₂⟩ := b
              rw [hr] at h; simp only at h
              injection h with h; injection h with h₁ h₂; subst h₁; subst h₂
              have pl := ih _ _ _ hl
              have pr := ih _ _ _ hr
              have hs₁ := pl.stream
              rw [pr.stream] at hs₁
              simp only [InStream.mk.injEq] at hs₁
              refine ⟨by simp [HuffTree.shape, pl.noFreq, pr.noFreq], ?_, ?_, ?_, ?_, ?_, ?_⟩
              · simp [HuffTree.ser, hs₁]
              · simp [HuffTree.nint, pr.ni, pl.ni]; omega
              · simp [HuffTree.nleaf, pr.nl, pl.nl]; omega
              · simp [HuffTree.leaves, pr.seen, pl.seen]
              · intro x hx
                rcases List.mem_append.mp hx with hx | hx
                · exact pl.inRange x hx
                · exact pr.inRange x hx
              · intro hn; exact pr.nodup (pl.nodup hn)

/-! ### Faults -/

/-- A fault leaves the stream open as it was, at some later bit (R237). -/
theorem parseNode_error : ∀ (fuel : Nat) (d : ParseState) (e : ParseFault), parseNode fuel d = .error e →
    ∃ r, r <:+ d.inp.rem ∧ e.state.inp = { d.inp with rem := r } := by
  intro fuel
  induction fuel with
  | zero => intro d e h; injection h with h; subst h; exact ⟨_, List.suffix_refl _, rfl⟩
  | succ fuel ih =>
    intro d e h
    obtain ⟨⟨q, o, dr⟩, ni, nl, seen⟩ := d
    cases q with
    | nil => injection h with h; subst h; exact ⟨_, List.suffix_refl _, rfl⟩
    | cons b q =>
      cases b
      · have h' : parseLeaf ⟨⟨q, o, dr⟩, ni, nl, seen⟩ = .error e := h
        rcases readBits_cases 9 ⟨q, o, dr⟩ with ⟨v, r, hq, _⟩ | ⟨hlen, _⟩
        · simp only at hq; subst hq
          have hsuf : r <:+ false :: (bitsN v.toNat 9 ++ r) :=
            (List.suffix_append _ _).trans (List.suffix_cons _ _)
          rw [parseLeaf_bits] at h'
          split at h'
          · injection h' with h'; subst h'; exact ⟨r, hsuf, rfl⟩
          · split at h'
            · injection h' with h'; subst h'; exact ⟨r, hsuf, rfl⟩
            · cases h'
        · rw [parseLeaf_short hlen] at h'
          injection h' with h'; subst h'
          exact ⟨[], List.nil_suffix, rfl⟩
      · by_cases hni : ni = 256
        · subst hni; injection h with h; subst h
          exact ⟨q, List.suffix_cons _ _, rfl⟩
        · rw [parseNode_internal hni] at h
          cases hl : parseNode fuel ⟨⟨q, o, dr⟩, ni + 1, nl, seen⟩ with
          | error e' =>
            rw [hl] at h; injection h with h; subst h
            obtain ⟨r, hr, he⟩ := ih _ _ hl
            exact ⟨r, hr.trans (List.suffix_cons _ _), he⟩
          | ok a =>
            obtain ⟨l, d₁⟩ := a
            rw [hl] at h; simp only at h
            have hs := (parseNode_ok _ _ _ _ hl).stream
            cases hr : parseNode fuel d₁ with
            | ok b => rw [hr] at h; cases h
            | error e' =>
              rw [hr] at h; injection h with h; subst h
              obtain ⟨r, hr, he⟩ := ih _ _ hr
              simp only [InStream.mk.injEq] at hs
              obtain ⟨rfl, rfl, rfl⟩ := hs
              exact ⟨r, (hr.trans (List.suffix_append _ _)).trans (List.suffix_cons _ _), he⟩

/-! ### Where the descent stops -/

/-- The records of a tree in stream order (R100). -/
def HuffTree.records : HuffTree → List TreeRecord
  | .leaf s _ => [.leaf s]
  | .internal l r => .internal :: (l.records ++ r.records)

theorem recordBits_append (l m : List TreeRecord) : recordBits (l ++ m) = recordBits l ++ recordBits m := by
  simp [recordBits]

theorem recordSyms_append (l m : List TreeRecord) : recordSyms (l ++ m) = recordSyms l ++ recordSyms m := by
  simp [recordSyms]

theorem recordInternals_append (l m : List TreeRecord) :
    recordInternals (l ++ m) = recordInternals l + recordInternals m := by simp [recordInternals]

theorem HuffTree.records_bits (t : HuffTree) : recordBits t.records = t.ser := by
  induction t with
  | leaf s f => simp [records, recordBits, TreeRecord.bits, ser]
  | internal l r hl hr =>
    have : recordBits (.internal :: (l.records ++ r.records)) = true :: recordBits (l.records ++ r.records) := rfl
    rw [records, this, recordBits_append, hl, hr, ser]

theorem HuffTree.records_syms (t : HuffTree) : recordSyms t.records = t.leaves := by
  induction t with
  | leaf s f => rfl
  | internal l r hl hr =>
    have : recordSyms (.internal :: (l.records ++ r.records)) = recordSyms (l.records ++ r.records) := rfl
    rw [records, this, recordSyms_append, hl, hr, leaves]

theorem HuffTree.records_internals (t : HuffTree) : recordInternals t.records = t.nint := by
  induction t with
  | leaf s f => rfl
  | internal l r hl hr =>
    have : recordInternals (.internal :: (l.records ++ r.records)) = recordInternals (l.records ++ r.records) + 1 := by
      simp [recordInternals]
    rw [records, this, recordInternals_append, hl, hr, nint]; omega

theorem stillOpen_mono (l : List TreeRecord) : ∀ k, stillOpen k l = true → stillOpen (k + 1) l = true := by
  induction l with
  | nil => intro k _; simp [stillOpen]
  | cons r l ih =>
    intro k h
    cases k with
    | zero => simp [stillOpen] at h
    | succ k =>
      cases r with
      | leaf s => exact ih k h
      | internal => exact ih (k + 2) h

/-- A whole tree leaves one node less to be read. -/
theorem stillOpen_tree (t : HuffTree) : ∀ (k : Nat) (l : List TreeRecord),
    stillOpen (k + 1) (t.records ++ l) = stillOpen k l := by
  induction t with
  | leaf s f => intro k l; rfl
  | internal a b ha hb =>
    intro k l
    have : stillOpen (k + 1) (HuffTree.records (.internal a b) ++ l) = stillOpen (k + 2) (a.records ++ (b.records ++ l)) := by
      simp [HuffTree.records, stillOpen]
    rw [this, ha, hb]

/-- With more than one node to be read, either the first is not complete or the records begin with a whole tree. -/
theorem stillOpen_split : ∀ (n : Nat) (l : List TreeRecord) (k : Nat), l.length ≤ n → 1 ≤ k →
    stillOpen (k + 1) l = true →
    stillOpen 1 l = true ∨ ∃ (t : HuffTree) (m : List TreeRecord), l = t.records ++ m ∧ stillOpen k m = true := by
  intro n
  induction n with
  | zero =>
    intro l k hn _ _
    rw [List.length_eq_zero_iff.mp (Nat.le_zero.mp hn)]
    exact .inl rfl
  | succ n ih =>
    intro l k hn hk h
    cases l with
    | nil => exact .inl rfl
    | cons r l =>
      simp only [List.length_cons] at hn
      cases r with
      | leaf s => exact .inr ⟨.leaf s 0, l, rfl, h⟩
      | internal =>
        rcases ih l (k + 1) (by omega) (by omega) h with h₁ | ⟨a, m, rfl, hm⟩
        · exact .inl (stillOpen_mono l 1 h₁)
        · simp only [List.length_append] at hn
          rcases ih m k (by omega) hk hm with h₂ | ⟨b, m', rfl, hm'⟩
          · exact .inl ((stillOpen_tree a 1 m).trans h₂)
          · exact .inr ⟨.internal a b, m', by simp [HuffTree.records], hm'⟩

/-- When reading a node at `z` stops with a fault, so does reading a tree that begins with sound records and goes on with
`z` before it is complete (R136). -/
theorem parseNode_stops {z rz : Bits} {f : HcFault} {info : Word} :
    ∀ (n : Nat) (l : List TreeRecord) (fuel ni nl : Nat) (seen : List Sym), l.length ≤ n →
    stillOpen 1 l = true → (recordBits l).length < fuel → ni + recordInternals l ≤ 256 →
    (∀ x ∈ recordSyms l, x.toNat ≤ 256) → (recordSyms l).Nodup → (∀ x ∈ recordSyms l, x ∉ seen) →
    (∀ fuel' nl' seen', (∀ x, x ∈ seen' ↔ x ∈ recordSyms l ∨ x ∈ seen) → ∃ d,
      parseNode (fuel' + 1) ⟨⟨z, o, dr⟩, ni + recordInternals l, nl', seen'⟩ = .error ⟨f, info, d⟩ ∧ d.inp = ⟨rz, o, dr⟩) →
    ∃ d, parseNode fuel ⟨⟨recordBits l ++ z, o, dr⟩, ni, nl, seen⟩ = .error ⟨f, info, d⟩ ∧ d.inp = ⟨rz, o, dr⟩ := by
  intro n
  induction n with
  | zero =>
    intro l fuel ni nl seen hn _ hf _ _ _ _ hz
    obtain rfl := List.length_eq_zero_iff.mp (Nat.le_zero.mp hn)
    obtain ⟨fuel, rfl⟩ : ∃ k, fuel = k + 1 := ⟨fuel - 1, by omega⟩
    exact hz fuel nl seen (by simp [recordSyms])
  | succ n ih =>
    intro l fuel ni nl seen hn ho hf hi hb hd hs hz
    obtain ⟨fuel, rfl⟩ : ∃ k, fuel = k + 1 := ⟨fuel - 1, by omega⟩
    cases l with
    | nil => exact hz fuel nl seen (by simp [recordSyms])
    | cons r l =>
      cases r with
      | leaf s => cases l <;> simp [stillOpen] at ho
      | internal =>
        have eb : recordBits (.internal :: l) = true :: recordBits l := rfl
        have es : recordSyms (.internal :: l) = recordSyms l := rfl
        have ei : recordInternals (.internal :: l) = recordInternals l + 1 := by simp [recordInternals]
        rw [eb, List.length_cons] at hf
        rw [ei] at hi hz
        rw [es] at hb hd hs hz
        have en : ni + (recordInternals l + 1) = ni + 1 + recordInternals l := by omega
        rw [en] at hz
        simp only [List.length_cons] at hn
        rw [eb, List.cons_append, parseNode_internal (by omega)]
        rcases stillOpen_split l.length l 1 (le_refl _) (le_refl _) ho with h₁ | ⟨t, m, rfl, hm⟩
        · obtain ⟨d, hd', he⟩ := ih l fuel (ni + 1) nl seen (by omega) h₁ (by omega) (by omega) hb hd hs hz
          rw [hd']
          exact ⟨d, rfl, he⟩
        · rw [recordBits_append, List.length_append, t.records_bits] at hf
          rw [recordInternals_append, t.records_internals] at hi hz
          rw [recordSyms_append, t.records_syms] at hb hd hs hz
          rw [List.nodup_append'] at hd
          rw [recordBits_append, t.records_bits, List.append_assoc,
            parseNode_ser t fuel (recordBits m ++ z) (ni + 1) nl seen (by omega) (by omega)
              (fun x hx => hb x (List.mem_append_left _ hx)) hd.1 (fun x hx => hs x (List.mem_append_left _ hx))]
          simp only
          have hs' : ∀ x ∈ recordSyms m, x ∉ t.leaves.reverse ++ seen := by
            intro x hx hmem
            rcases List.mem_append.mp hmem with h | h
            · exact hd.2.2 (List.mem_reverse.mp h) hx
            · exact hs x (List.mem_append_right _ hx) h
          have en' : ni + 1 + (t.nint + recordInternals m) = ni + 1 + t.nint + recordInternals m := by omega
          rw [en'] at hz
          have hlm : m.length ≤ n := by simp only [List.length_append] at hn; omega
          obtain ⟨d, hd', he⟩ := ih m fuel (ni + 1 + t.nint) (nl + t.nleaf) (t.leaves.reverse ++ seen) hlm hm (by omega)
            (by omega) (fun x hx => hb x (List.mem_append_right _ hx)) hd.2.1 hs' (by
              intro fuel' nl' seen' hseen
              refine hz fuel' nl' seen' fun x => ?_
              rw [hseen x]
              simp only [List.mem_append, List.mem_reverse]
              tauto)
          rw [hd']
          exact ⟨d, rfl, he⟩

/-- DESER's descent on sound records and then `z`, where reading a node at `z` stops with a fault (R136). -/
theorem parseTree_stops {inp : InStream} {l : List TreeRecord} {z rz : Bits} {f : HcFault} {info : Word} (h : ReadSoFar l)
    (hr : inp.rem = recordBits l ++ z)
    (hz : ∀ fuel nl seen, (∀ x, x ∈ seen ↔ x ∈ recordSyms l) → ∃ d,
      parseNode (fuel + 1) ⟨{ inp with rem := z }, recordInternals l, nl, seen⟩ = .error ⟨f, info, d⟩ ∧
        d.inp = { inp with rem := rz }) :
    ∃ d, parseTree inp = .error ⟨f, info, d⟩ ∧ d.inp = { inp with rem := rz } := by
  have := parseNode_stops (o := inp.opened) (dr := inp.dropped) (z := z) (rz := rz) (f := f) (info := info)
    l.length l (inp.rem.length + 1) 0 0 [] (le_refl _) h.incomplete (by rw [hr, List.length_append]; omega)
    (by have := h.markers; omega) h.inRange h.noRepeat (by simp) (by
      intro fuel nl seen hs
      rw [Nat.zero_add]
      exact hz fuel nl seen (fun x => by rw [hs x]; simp))
  rw [← hr] at this
  exact this

end Sys2Proof.Machine
end

