-- ==== Sys2Proof/Laws/Commands.lean ====
section
/-! SUPPORT. Everything each command can do when it answers a next state: it was ignored, it took a fault, or it had its
effect. Proofs about all runs split on these and unfold no command. -/

namespace Sys2Proof.Machine

/-- The command was ignored (R240). -/
def State.IgnoredTo (s t : State) : Prop := s.session ≠ .ready ∧ t = s

/-- The command took a fault, with the streams as they are in `s` at that point (R236). -/
def State.FaultedTo (f : HcFault) (info : Word) (s t : State) : Prop :=
  s.session = .ready ∧ s.inp.opened = true ∧ s.out.opened = true ∧ t = s.faulted f info

theorem State.FaultedTo.of_raise {f : HcFault} {info : Word} {s t : State} (hs : s.session = .ready)
    (h : raise f info s = .next t) : s.FaultedTo f info t := by
  obtain ⟨hi, ho, rfl⟩ := raise_next h
  exact ⟨hs, hi, ho, rfl⟩

theorem needTree_next {w : Word} {s t : State} {k : HuffTree → Host.Outcome State Fault Refusal}
    (hs : s.session = .ready) (h : needTree w s k = .next t) :
    (s.tree = none ∧ s.FaultedTo .seq w t) ∨ ∃ u, s.tree = some u ∧ k u = .next t := by
  cases ht : s.tree with
  | none => exact .inl ⟨rfl, .of_raise hs (by rwa [needTree_of_none ht] at h)⟩
  | some u => exact .inr ⟨u, rfl, by rwa [needTree_of_some ht] at h⟩

theorem needNoTree_next {w : Word} {s t : State} {k : Host.Outcome State Fault Refusal} (hs : s.session = .ready)
    (h : needNoTree w s k = .next t) : (s.tree ≠ none ∧ s.FaultedTo .seq w t) ∨ (s.tree = none ∧ k = .next t) := by
  cases ht : s.tree with
  | none => exact .inr ⟨rfl, by rwa [needNoTree_of_none ht] at h⟩
  | some u => exact .inl ⟨Option.some_ne_none u, .of_raise hs (by rwa [needNoTree_of_some ht] at h)⟩

theorem needCode_next {w : Word} {s t : State} {k : Table (Option Bits) 257 → Host.Outcome State Fault Refusal}
    (hs : s.session = .ready) (h : needCode w s k = .next t) :
    (s.code = none ∧ s.FaultedTo .seq w t) ∨ ∃ c, s.code = some c ∧ k c = .next t := by
  cases hc : s.code with
  | none => exact .inl ⟨rfl, .of_raise hs (by rwa [needCode_of_none hc] at h)⟩
  | some c => exact .inr ⟨c, rfl, by rwa [needCode_of_some hc] at h⟩

/-! ### BUILD -/

/-- BUILD's loop starts from the queue of EOS and the byte leaves (R121). -/
theorem buildRoot_eq (freq : Table Word 256) :
    buildRoot freq = mergeAll ((byteLeaves 0 0 freq.cells).length + 1) ((byteLeaves 0 0 freq.cells).length + 1)
      (eosEntry (byteLeaves 0 0 freq.cells).length) (byteLeaves 0 0 freq.cells) := rfl

/-- The leaves of the built tree, in some order: EOS and the byte leaves (R126). -/
theorem buildRoot_leafRecords (freq : Table Word 256) :
    ((buildRoot freq).tree.leafRecords).Perm ((256, 1) :: queueLeaves (byteLeaves 0 0 freq.cells)) := by
  rw [buildRoot_eq]
  exact (mergeAll_keeps _ _ _ _ (Nat.lt_succ_self _)).1

theorem mem_buildRoot (freq : Table Word 256) (x : Sym) (f : Nat) :
    (x, f) ∈ (buildRoot freq).tree.leafRecords ↔
      (x = 256 ∧ f = 1) ∨ (∃ i : Fin 256, x = BitVec.ofNat 9 i.val ∧ f = (freq.get i).toNat ∧ f ≠ 0) := by
  rw [(buildRoot_leafRecords freq).mem_iff, List.mem_cons, mem_byteLeaves, Prod.mk.injEq]
  refine or_congr Iff.rfl ?_
  constructor
  · rintro ⟨k, c, hk, hx, hf, hc⟩
    obtain ⟨hlt, he⟩ := List.getElem?_eq_some_iff.mp hk
    rw [freq.len] at hlt
    refine ⟨⟨k, hlt⟩, by simpa using hx, ?_, ?_⟩
    · rw [hf, ← he]; rfl
    · rw [hf]; exact fun h0 => hc (BitVec.eq_of_toNat_eq h0)
  · rintro ⟨i, hx, hf, h0⟩
    refine ⟨i.val, freq.get i, ?_, by simpa using hx, hf, ?_⟩
    · rw [List.getElem?_eq_some_iff]; exact ⟨by rw [freq.len]; exact i.isLt, rfl⟩
    · intro h; rw [hf, h] at h0; exact h0 rfl

/-- The built tree is legal (R31). -/
theorem buildRoot_valid (freq : Table Word 256) : (buildRoot freq).tree.Valid := by
  have hp := (buildRoot_leafRecords freq).map Prod.fst
  rw [HuffTree.leafRecords_map_fst] at hp
  refine ⟨?_, ?_, ?_⟩
  · intro x hx
    rw [← HuffTree.leafRecords_map_fst] at hx
    obtain ⟨⟨y, f⟩, hy, rfl⟩ := List.mem_map.mp hx
    rcases (mem_buildRoot freq y f).mp hy with ⟨hy', _⟩ | ⟨i, rfl, _⟩
    · simp only [hy']; decide
    · have := i.isLt; simp; omega
  · rw [hp.nodup_iff, List.map_cons, List.nodup_cons]
    refine ⟨?_, byteLeaves_nodup freq.cells 0 0 (by rw [freq.len])⟩
    intro hm
    obtain ⟨⟨y, f⟩, hy, hye⟩ := List.mem_map.mp hm
    simp only at hye; subst hye
    obtain ⟨k, c, hk, hx, _⟩ := (mem_byteLeaves _ _ _ _ _).mp hy
    obtain ⟨hlt, _⟩ := List.getElem?_eq_some_iff.mp hk
    rw [freq.len] at hlt
    have := congrArg BitVec.toNat hx
    simp at this; omega
  · rw [← HuffTree.leafRecords_map_fst]
    exact List.mem_map.mpr ⟨(256, 1), (mem_buildRoot freq _ _).mpr (.inl ⟨rfl, rfl⟩), rfl⟩

theorem byteLeaves_queueLeaves_length (cs : List Word) : ∀ s seq,
    (queueLeaves (byteLeaves s seq cs)).length = (byteLeaves s seq cs).length := by
  induction cs with
  | nil => intro s seq; rfl
  | cons c cs ih =>
    intro s seq
    by_cases h : c = 0
    · rw [byteLeaves_zero h]; exact ih _ _
    · rw [byteLeaves_pos h]
      have := ih (s + 1) (seq + 1)
      simp only [queueLeaves, List.flatMap_cons, HuffTree.leafRecords, List.length_append, List.length_cons,
        List.length_nil] at this ⊢
      omega

/-- The size of the queue before the first merge is the leaf count of the tree (R126). -/
theorem buildRoot_nleaf (freq : Table Word 256) : (buildRoot freq).tree.nleaf = buildLeafCount freq := by
  rw [← HuffTree.leaves_length, ← HuffTree.leafRecords_map_fst, List.length_map,
    (buildRoot_leafRecords freq).length_eq, List.length_cons, byteLeaves_queueLeaves_length, buildLeafCount]

/-- NLEAF after BUILD is the size of the queue before the first merge (R121). -/
theorem initialQueue_length (freq : Table Word 256) : (initialQueue freq).length = buildLeafCount freq := by
  simp [initialQueue, buildLeafCount]

theorem execBuild_next {s t : State} (h : execBuild s = .next t) :
    s.IgnoredTo t ∨ (s.tree ≠ none ∧ s.FaultedTo .seq (encode .build) t) ∨
      (s.session = .ready ∧ s.tree = none ∧
        t = { s with tree := some (buildRoot s.freq).tree, nleaf := BitVec.ofNat 9 (buildRoot s.freq).tree.nleaf }) := by
  rcases whenReady_next h with ⟨hs, h⟩ | h
  · rcases needNoTree_next hs h with h | ⟨ht, h⟩
    · exact .inr (.inl h)
    · injection h with h
      rw [buildRoot_nleaf]
      exact .inr (.inr ⟨hs, ht, h.symm⟩)
  · exact .inl h

/-! ### DESER -/

/-- A parse error leaves a stream that was only consumed (R237). -/
theorem parseTree_error {inp : InStream} {e : ParseFault} (h : parseTree inp = .error e) : inp.ConsumedTo e.state.inp := by
  obtain ⟨r, hr, he⟩ := parseNode_error _ _ _ h
  exact ⟨r, hr, he⟩

/-- A tree that was read stood on the stream, with no symbol twice and none out of range (R145). -/
theorem parseTree_ok {inp : InStream} {t : HuffTree} {d : ParseState} (h : parseTree inp = .ok (t, d)) :
    t.shape = t ∧ inp = { d.inp with rem := t.ser ++ d.inp.rem } ∧ d.nl = t.nleaf ∧ (∀ x ∈ t.leaves, x.toNat ≤ 256) ∧
      t.leaves.Nodup ∧ ∀ x, x ∈ d.seen ↔ x ∈ t.leaves := by
  have P := parseNode_ok _ _ _ _ h
  have hs := P.seen
  have hn := P.nodup List.nodup_nil
  have hl := P.nl
  simp only [List.append_nil, Nat.zero_add] at hs hl
  rw [hs] at hn
  exact ⟨P.noFreq, P.stream, hl, P.inRange, List.nodup_reverse.mp hn, fun x => by rw [hs, List.mem_reverse]⟩

theorem execDeser_next {s t : State} (h : execDeser s = .next t) :
    s.IgnoredTo t ∨ (s.tree ≠ none ∧ s.FaultedTo .seq (encode .deser) t) ∨
      (s.tree = none ∧ ∃ f info r, s.inp.ConsumedTo r ∧ State.FaultedTo f info { s with inp := r } t) ∨
      (s.session = .ready ∧ s.inp.opened = true ∧ s.tree = none ∧ ∃ u r, u.Valid ∧ u.shape = u ∧
        s.inp = { r with rem := u.ser ++ r.rem } ∧
        t = { s with inp := r, tree := some u, nleaf := BitVec.ofNat 9 u.nleaf }) := by
  rcases whenReady_next h with ⟨hs, h⟩ | h
  · rcases needNoTree_next hs h with h | ⟨ht, h⟩
    · exact .inr (.inl h)
    · obtain ⟨hi, h⟩ := usingIn_next h
      cases hp : parseTree s.inp with
      | error e =>
        rw [hp] at h
        exact .inr (.inr (.inl ⟨ht, e.code, e.info, _, parseTree_error hp, .of_raise hs h⟩))
      | ok p =>
        obtain ⟨u, d⟩ := p
        obtain ⟨hf, hst, hl, hr, hn, hseen⟩ := parseTree_ok hp
        rw [hp] at h
        simp only at h
        split at h
        · rename_i he
          injection h with h
          rw [hl] at h
          exact .inr (.inr (.inr ⟨hs, hi, ht, u, d.inp, ⟨hr, hn, (hseen _).mp he⟩, hf, hst, h.symm⟩))
        · refine .inr (.inr (.inl ⟨ht, _, _, d.inp, ⟨d.inp.rem, ?_, ?_⟩, .of_raise hs h⟩))
          · rw [hst]; exact List.suffix_append _ _
          · rw [hst]
  · exact .inl h

/-! ### SER, LOOKUP, CODEGEN -/

theorem execSer_next {s t : State} (h : execSer s = .next t) :
    s.IgnoredTo t ∨ (s.tree = none ∧ s.FaultedTo .seq (encode .ser) t) ∨
      (s.session = .ready ∧ s.out.opened = true ∧ ∃ u, s.tree = some u ∧
        t = { s with out := { s.out with bits := s.out.bits ++ u.ser } }) := by
  rcases whenReady_next h with ⟨hs, h⟩ | h
  · rcases needTree_next hs h with h | ⟨u, hu, h⟩
    · exact .inr (.inl h)
    · obtain ⟨ho, h⟩ := usingOut_next h
      injection h with h
      rw [emitTree_eq] at h
      exact .inr (.inr ⟨hs, ho, u, hu, h.symm⟩)
  · exact .inl h

theorem execLookup_next {sym : Sym} {s t : State} (h : execLookup sym s = .next t) :
    s.IgnoredTo t ∨ (s.tree = none ∧ s.FaultedTo .seq (encode (.lookup sym)) t) ∨
      (s.session = .ready ∧ ∃ u, s.tree = some u ∧
        ((u.path sym = none ∧ t = { s with lkFound := false, lklen := 0, lkbits := Table.filled 8 0 }) ∨
         ∃ p, u.path sym = some p ∧
          t = { s with lkFound := true, lklen := BitVec.ofNat 9 p.length, lkbits := packPath p })) := by
  rcases whenReady_next h with ⟨hs, h⟩ | h
  · rcases needTree_next hs h with h | ⟨u, hu, h⟩
    · exact .inr (.inl h)
    · refine .inr (.inr ⟨hs, u, hu, ?_⟩)
      cases hp : u.path sym with
      | none => rw [hp] at h; injection h with h; exact .inl ⟨rfl, h.symm⟩
      | some p => rw [hp] at h; injection h with h; exact .inr ⟨p, rfl, h.symm⟩
  · exact .inl h

theorem execCodegen_next {s t : State} (h : execCodegen s = .next t) :
    s.IgnoredTo t ∨ (s.tree = none ∧ s.FaultedTo .seq (encode .codegen) t) ∨
      (s.session = .ready ∧ ∃ u, s.tree = some u ∧ t = { s with code := some (codeTable u) }) := by
  rcases whenReady_next h with ⟨hs, h⟩ | h
  · rcases needTree_next hs h with h | ⟨u, hu, h⟩
    · exact .inr (.inl h)
    · injection h with h
      exact .inr (.inr ⟨hs, u, hu, h.symm⟩)
  · exact .inl h

/-! ### ENCODE and DECODE -/

theorem execEncode_next {s t : State} (h : execEncode s = .next t) :
    s.IgnoredTo t ∨ (s.code = none ∧ s.FaultedTo .seq (encode .encode) t) ∨
      (∃ v r u, s.inp.ConsumedTo r ∧ s.out.ExtendedTo u ∧
        State.FaultedTo .symNotFound (BitVec.setWidth 32 (v : Byte)) { s with inp := r, out := u } t) ∨
      (s.session = .ready ∧ ∃ c r u, s.code = some c ∧ s.inp.ConsumedTo r ∧ s.out.ExtendedTo u ∧
        t = { s with inp := r, out := u }) := by
  rcases whenReady_next h with ⟨hs, h⟩ | h
  · rcases needCode_next hs h with h | ⟨c, hc, h⟩
    · exact .inr (.inl h)
    · obtain ⟨_, h⟩ := usingIn_next h
      obtain ⟨_, h⟩ := usingOut_next h
      rcases encodeLoop_cases c (s.inp.rem.length + 1) s.inp s.out with ⟨r, u, he, hr, hu⟩ | ⟨v, r, u, he, hr, hu⟩ | ⟨he, _⟩
      · rw [he] at h
        injection h with h
        exact .inr (.inr (.inr ⟨hs, c, r, u, hc, hr, hu, h.symm⟩))
      · rw [he] at h
        exact .inr (.inr (.inl ⟨v, r, u, hr, hu, .of_raise hs h⟩))
      · rw [he] at h; cases h
  · exact .inl h

theorem execDecode_next {s t : State} (h : execDecode s = .next t) :
    s.IgnoredTo t ∨ (s.tree = none ∧ s.FaultedTo .seq (encode .decode) t) ∨
      (s.tree ≠ none ∧ ∃ r u, s.inp.ConsumedTo r ∧ s.out.ExtendedTo u ∧
        State.FaultedTo .truncated 0 { s with inp := r, out := u, decDone := false } t) ∨
      (s.session = .ready ∧ s.tree ≠ none ∧ ∃ r u, s.inp.ConsumedTo r ∧ s.out.ExtendedTo u ∧
        t = { s with inp := r, out := u, decDone := true }) := by
  rcases whenReady_next h with ⟨hs, h⟩ | h
  · rcases needTree_next hs h with h | ⟨u, hu, h⟩
    · exact .inr (.inl h)
    · have hne : s.tree ≠ none := by rw [hu]; exact Option.some_ne_none u
      cases u with
      | leaf x f =>
        injection h with h
        exact .inr (.inr (.inr ⟨hs, hne, s.inp, s.out, .refl _, .refl _, h.symm⟩))
      | internal l r =>
        obtain ⟨_, h⟩ := usingIn_next h
        obtain ⟨_, h⟩ := usingOut_next h
        obtain ⟨r', u, he | he, hr, ho⟩ := decodeRun_cases ⟨l, r⟩ (s.inp.rem.length + 1) ⟨⟨l, r⟩, s.inp, s.out⟩
        · rw [he] at h
          injection h with h
          exact .inr (.inr (.inr ⟨hs, hne, r', u, hr, ho, h.symm⟩))
        · rw [he] at h
          exact .inr (.inr (.inl ⟨hne, r', u, hr, ho, .of_raise hs h⟩))
  · exact .inl h

/-! ### WRHDR, RDHDR, CLOSE -/

theorem execWrhdr_next {s t : State} (h : execWrhdr s = .next t) :
    s.IgnoredTo t ∨ (s.session = .ready ∧ s.out.opened = true ∧
      t = { s with out := { s.out with bits := s.out.bits ++ bitsN s.params.magic.toNat 32 } }) := by
  rcases whenReady_next h with ⟨hs, h⟩ | h
  · obtain ⟨ho, h⟩ := usingOut_next h
    injection h with h
    rw [writeBits_eq] at h
    exact .inr ⟨hs, ho, h.symm⟩
  · exact .inl h

theorem execRdhdr_next {s t : State} (h : execRdhdr s = .next t) :
    s.IgnoredTo t ∨ (∃ info r, s.inp.ConsumedTo r ∧ State.FaultedTo .magicMismatch info { s with inp := r } t) ∨
      (s.session = .ready ∧ ∃ r, s.inp.ConsumedTo r ∧ t = { s with inp := r }) := by
  rcases whenReady_next h with ⟨hs, h⟩ | h
  · obtain ⟨_, h⟩ := usingIn_next h
    have hr := readBits_consumedTo 32 s.inp
    cases hb : s.inp.readBits 32 with
    | mk v r =>
      rw [hb] at h hr
      cases v with
      | none => exact .inr (.inl ⟨_, r, hr, .of_raise hs h⟩)
      | some v =>
        simp only at h
        split at h
        · injection h with h
          exact .inr (.inr ⟨hs, r, hr, h.symm⟩)
        · exact .inr (.inl ⟨_, r, hr, .of_raise hs h⟩)
  · exact .inl h

theorem execClose_next {s t : State} (h : execClose s = .next t) :
    s.IgnoredTo t ∨ (s.session = .ready ∧ s.inp.opened = true ∧ s.out.opened = true ∧
      t = { s.released with session := .closed }) := by
  rcases whenReady_next h with ⟨hs, h⟩ | h
  · cases hc : closeStreams s with
    | next u =>
      obtain ⟨hi, ho, rfl⟩ := closeStreams_next hc
      rw [hc, andThen_next] at h
      injection h with h
      exact .inr ⟨hs, hi, ho, h.symm⟩
    | fault r => rw [hc] at h; cases h
    | refused r => rw [hc] at h; cases h
  · exact .inl h

/-! ### The port -/

theorem portReg_cmd : portReg 256 = .cmd := by decide

theorem portReg_freq {n : RegNum} (h : n.toNat < 256) : portReg n = .freq ⟨n.toNat, h⟩ := by simp [portReg, h]

/-- A write to CMD of a word that is not legal takes the fault of R233 or is ignored (R238). -/
theorem writeCmd_next {w : Word} {s t : State} (h : writeCmd w s = .next t) :
    (∃ i, decode w = .ok i ∧ exec i s = .next t) ∨ s.IgnoredTo t ∨ s.FaultedTo .illegalCmd w t := by
  cases hd : decode w with
  | ok i => rw [writeCmd, hd] at h; exact .inl ⟨i, rfl, h⟩
  | error e =>
    rw [writeCmd, hd] at h
    rcases whenReady_next h with ⟨hs, h⟩ | h
    · exact .inr (.inr (.of_raise hs h))
    · exact .inr (.inl h)

/-- What a FREQ register keeps of a write, as a number (R219). -/
theorem lowBits_toNat (fw : Nat) (v : Word) : (lowBits fw v).toNat = v.toNat % 2 ^ fw := by
  rw [lowBits, BitVec.toNat_ofNat]
  exact Nat.mod_eq_of_lt (Nat.lt_of_le_of_lt (Nat.mod_le _ _) v.isLt)

theorem writeFreq_next {i : Fin 256} {v : Word} {s t : State} (h : writeFreq i v s = .next t) :
    s.IgnoredTo t ∨ (s.session = .ready ∧ t = { s with freq := s.freq.set i (lowBits s.params.fw v) }) := by
  rcases whenReady_next h with ⟨hs, h⟩ | h
  · injection h with h
    exact .inr ⟨hs, h.symm⟩
  · exact .inl h

/-- What one event at the port can do: a command, an illegal word, a FREQ write, a write without effect, a read, or the
reset pin (R219, R220). -/
theorem transact_next {e : HostEvent} {s t : State} (h : transact e s = .next t) :
    (∃ w i, e = .wreg cmdReg w ∧ decode w = .ok i ∧ exec i s = .next t) ∨
      (∃ w, e = .wreg cmdReg w ∧ s.FaultedTo .illegalCmd w t) ∨
      (∃ n v, ∃ i : Fin 256, e = .wreg n v ∧ s.session = .ready ∧
        t = { s with freq := s.freq.set i (lowBits s.params.fw v) }) ∨
      (∃ n v, e = .wreg n v ∧ t = s) ∨
      (∃ n, e = .rreg n ∧ t = { s with replies := s.replies ++ [readReg n s] }) ∨
      (e = .rst ∧ resetCore s = .next t) := by
  cases e with
  | rst => exact .inr (.inr (.inr (.inr (.inr ⟨rfl, h⟩))))
  | rreg n => injection h with h; exact .inr (.inr (.inr (.inr (.inl ⟨n, rfl, h.symm⟩))))
  | wreg n v =>
    have still : s = t → (∃ n' v', HostEvent.wreg n v = .wreg n' v' ∧ t = s) := fun h => ⟨n, v, rfl, h.symm⟩
    rw [transact, busWrite] at h
    cases hp : portReg n with
    | cmd =>
      have hn : n = cmdReg := by
        by_contra hne
        have : n.toNat ≠ 256 := fun e => hne (BitVec.eq_of_toNat_eq e)
        unfold portReg at hp
        split_ifs at hp
      subst hn
      rw [hp] at h
      rcases writeCmd_next h with ⟨i, hd, h⟩ | h | h
      · exact .inl ⟨v, i, rfl, hd, h⟩
      · exact .inr (.inr (.inr (.inl ⟨_, _, rfl, h.2⟩)))
      · exact .inr (.inl ⟨v, rfl, h⟩)
    | freq i =>
      rw [hp] at h
      rcases writeFreq_next h with h | ⟨hs, h⟩
      · exact .inr (.inr (.inr (.inl ⟨_, _, rfl, h.2⟩)))
      · exact .inr (.inr (.inl ⟨n, v, i, rfl, hs, h⟩))
    | status | errInfo | nleaf | lklen | lkbits k | reserved =>
      rw [hp] at h
      injection h with h
      exact .inr (.inr (.inr (.inl (still h))))

end Sys2Proof.Machine
end

