-- ==== Sys2Proof/Laws/PerInstr.lean ====
section
/-! SUPPORT. Facts about every command's word, one lemma per constructor: OP stands in bits 3:0 and bits 31:13 are 0
in both formats (R91, R93). -/

namespace Sys2Proof.Laws.OpField

/-- The word of `i` holds its opcode in OP, and zeros above bit 12. -/
def Statement (i : Instr) : Prop := opField (encode i) = i.opcode ∧ zeroFieldS (encode i) = 0

theorem build : Statement .build := by unfold Statement; decide
theorem deser : Statement .deser := by unfold Statement; decide
theorem ser : Statement .ser := by unfold Statement; decide
theorem lookup (sym : Sym) : Statement (.lookup sym) := by
  constructor
  · apply BitVec.eq_of_getLsbD_eq
    intro i hi
    simp only [opField, encode, BitVec.getLsbD_extractLsb', BitVec.getLsbD_append, hi, decide_true, Bool.true_and, Nat.zero_add, if_true]
  · apply BitVec.eq_of_getLsbD_eq
    intro i hi
    simp only [zeroFieldS, encode, BitVec.getLsbD_extractLsb', BitVec.getLsbD_append, hi]
    have h₁ : ¬ 13 + i < 4 := by omega
    have h₂ : ¬ 13 + i - 4 < 9 := by omega
    simp [h₁, h₂]
theorem codegen : Statement .codegen := by unfold Statement; decide
theorem encode : Statement .encode := by unfold Statement; decide
theorem decode : Statement .decode := by unfold Statement; decide
theorem wrhdr : Statement .wrhdr := by unfold Statement; decide
theorem rdhdr : Statement .rdhdr := by unfold Statement; decide
theorem close : Statement .close := by unfold Statement; decide
theorem reset : Statement .reset := by unfold Statement; decide

end Sys2Proof.Laws.OpField
end

