-- ==== Sys2Proof/Tests/Slice0.lean ====
section
/-! SUPPORT. Tests. Every expected value is taken from the spec's encodings and vectors (named V, P or R in the comments),
which use MAGIC = 0x00000736. The last part shows, for every statement with hypotheses, concrete values that meet them. -/

set_option Elab.async false

namespace Sys2Proof.Tests

open Sys2Proof Sys2Proof.Machine

/-! ### Helpers -/

/-- A bit string as the spec prints it: spaces are for reading only. -/
def b (text : String) : Bits :=
  text.toList.filterMap fun c => if c = '1' then some true else if c = '0' then some false else none

/-- The reset state with the stand-in MAGIC of the vectors. -/
def start : State := { State.reset with params := { magic := 0x00000736, fw := 32 } }

/-- `s` with `q` attached as IN. -/
def feed (q : Bits) (s : State) : State := { s with inp := InStream.fresh q }

/-- `s` holding the tree `t`. -/
def hold (t : HuffTree) (s : State) : State := { s with tree := some t, nleaf := BitVec.ofNat 9 t.nleaf }

/-- `s` holding the tree `t` and its code table. -/
def coded (t : HuffTree) (s : State) : State := { hold t s with code := some (codeTable t) }

/-- `s` with counts written to FREQ. -/
def count (l : List (Fin 256 × Word)) (s : State) : State :=
  { s with freq := l.foldl (fun f e => f.set e.1 e.2) s.freq }

/-- Whether the machine answers the next state `t`. -/
def answers (o : Host.Outcome State Fault Refusal) (t : State) : Bool :=
  match o with
  | .next u => decide (u = t)
  | .fault _ | .refused _ => false

theorem next_of_answers {o : Host.Outcome State Fault Refusal} {t : State} (h : answers o t = true) : o = .next t := by
  cases o with
  | next u => exact congrArg _ (of_decide_eq_true h)
  | fault r => cases h
  | refused r => cases h

/-- A test on the state after one step in which the host writes `w` to CMD. -/
def after (w : Word) (s : State) (p : State → Bool) : Bool :=
  match step (issueWord w s) with
  | .next t => p t
  | .fault _ | .refused _ => false

/-- The tree of T2 (R202): A = 0, EOS = 1. -/
def t2 : HuffTree := .internal (.leaf 65 0) (.leaf 256 0)

/-- The tree of V25 and T3: A = 0, B = 10, EOS = 11. -/
def t3 : HuffTree := .internal (.leaf 65 0) (.internal (.leaf 66 0) (.leaf 256 0))

/-- The tree of R133: A `0`, B `101`, C `1110`, D `1111`, R `110`, EOS `100`. -/
def t6 : HuffTree :=
  .internal (.leaf 65 0) (.internal (.internal (.leaf 256 0) (.leaf 66 0))
    (.internal (.leaf 82 0) (.internal (.leaf 67 0) (.leaf 68 0))))

/-- A session that ended well (R216) and one that ended with a fault (R236). -/
def closed : State := { start with session := .closed, inp := start.inp.close, out := start.out.close [] }
def faulted : State := { closed with session := .fault, err := 10, errInfo := 0x0000000C }

/-! ### WellFormed: a symbol out of range is refused, for the only check there is (R93) -/

theorem test_lookup_257_is_ill_formed : (Instr.lookup 257).wellFormed = false := by decide
theorem test_lookup_511_is_ill_formed : (Instr.lookup 511).wellFormed = false := by decide
theorem test_lookup_256_is_well_formed : (Instr.lookup 256).wellFormed = true := by decide

/-! ### Decode: words written out field by field from R91 and R93 (ZERO, SYM, OP) -/

theorem test_decode_build : decode (0b0000000000000000000000000000#28 ++ 0b0001#4) = .ok .build := by decide
theorem test_decode_deser : decode (0b0000000000000000000000000000#28 ++ 0b0010#4) = .ok .deser := by decide
theorem test_decode_ser : decode (0b0000000000000000000000000000#28 ++ 0b0011#4) = .ok .ser := by decide
theorem test_decode_lookup :
    decode (0b0000000000000000000#19 ++ 0b001000001#9 ++ 0b0100#4) = .ok (.lookup 65) := by decide
theorem test_decode_codegen : decode (0b0000000000000000000000000000#28 ++ 0b0101#4) = .ok .codegen := by decide
theorem test_decode_encode : decode (0b0000000000000000000000000000#28 ++ 0b0110#4) = .ok .encode := by decide
theorem test_decode_decode : decode (0b0000000000000000000000000000#28 ++ 0b0111#4) = .ok .decode := by decide
theorem test_decode_wrhdr : decode (0b0000000000000000000000000000#28 ++ 0b1000#4) = .ok .wrhdr := by decide
theorem test_decode_rdhdr : decode (0b0000000000000000000000000000#28 ++ 0b1001#4) = .ok .rdhdr := by decide
theorem test_decode_close : decode (0b0000000000000000000000000000#28 ++ 0b1010#4) = .ok .close := by decide
theorem test_decode_reset : decode (0b0000000000000000000000000000#28 ++ 0b1011#4) = .ok .reset := by decide

/-- V15 to V17. -/
theorem test_decode_lookup_words :
    decode 0x00000004 = .ok (.lookup 0) ∧ decode 0x00000414 = .ok (.lookup 65) ∧
      decode 0x00001004 = .ok (.lookup 256) := by decide

/-- V18 and V19. -/
theorem test_decode_illegal_words :
    [0x00000000, 0x0000000C, 0x0000000F, 0x00000010, 0x80000001, 0x00002004, 0x00001014].all
      (fun w => match decode w with | .ok _ => false | .error _ => true) = true := by decide

/-- The encoder against R94's column of command words. -/
theorem test_encode_words :
    [Instr.build, .deser, .ser, .lookup 65, .codegen, .encode, .decode, .wrhdr, .rdhdr, .close, .reset].map encode =
      [1, 2, 3, 4 + 16 * 65, 5, 6, 7, 8, 9, 0xA, 0xB] := by decide

theorem test_decodeTableWord :
    decodeTableWord 32 1 = some .build ∧ decodeTableWord 32 0x00001004 = some (.lookup 256) ∧
      decodeTableWord 32 12 = none := by decide

/-- Every row of the opcode table runs as the first command after reset. -/
theorem test_every_row_runs :
    [1, 2, 3, 4, 5, 6, 7, 8, 9, 10, 11].all (fun w =>
      match step (State.reset.withFetchWord 32 w) with | .next _ => true | _ => false) = true := by decide +kernel

/-! ### Streams (V1 to V13) -/

/-- V2, V3, V6. -/
theorem test_bits_of_symbols : bitsN 65 9 = b "001000001" ∧ bitsN 256 9 = b "100000000" ∧ val (b "001000001") = 65 := by
  decide +kernel

/-- V6, V7. -/
theorem test_readBits :
    (InStream.fresh (b "001000001 11")).readBits 9 = (some 65, InStream.fresh (b "11")) ∧
      (InStream.fresh (b "0010000")).readBits 9 = (none, InStream.fresh []) := by decide +kernel

/-- V10. -/
theorem test_writeBits : ((OutStream.writeBits 256 9 OutStream.fresh).writeBit true).bits = b "100000000 1" := by
  decide +kernel

/-- V11: bits 0100000000 and any six padding bits make the bytes 40 and 00pppppp. -/
theorem test_close_pads :
    (({ OutStream.fresh with bits := b "0100000000" }).close (b "010101")).file = some [0x40, 0b00010101] := by
  decide +kernel

/-- V13. -/
theorem test_fileBits : fileBits [0xA5, 0x01] = b "1010 0101 0000 0001" := by decide +kernel

/-! ### BUILD -/

/-- V30 and R133, with the counts in the leaves. -/
theorem test_build_abracadabra :
    after 1 (count [(65, 5), (66, 2), (67, 1), (68, 1), (82, 2)] start) (fun t =>
      t.tree = some (.internal (.leaf 65 5) (.internal (.internal (.leaf 256 1) (.leaf 66 2))
        (.internal (.leaf 82 2) (.internal (.leaf 67 1) (.leaf 68 1))))) ∧ t.nleaf = 6 ∧ t.statusWord = 4) = true := by
  decide +kernel

/-- V31: a sum above 32 bits does not wrap. -/
theorem test_build_no_wrap :
    after 1 (count [(200, 4294967295), (201, 4294967295)] start) (fun t =>
      t.tree = some (.internal (.leaf 201 4294967295) (.internal (.leaf 256 1) (.leaf 200 4294967295)))) = true := by
  decide +kernel

/-! ### DESER -/

/-- R149. -/
theorem test_deser_reads :
    after 2 (feed (b "1 0001000001 1 0001000010 0100000000") start) (fun t =>
      t.tree = some t3 ∧ t.nleaf = 3 ∧ t.inp.rem = [] ∧ t.statusWord = 4) = true := by decide +kernel

/-- R148: a repeated symbol. -/
theorem test_deser_duplicate :
    after 2 (feed (b "1 0001000001 0001000001") start) (fun t =>
      t.statusWord = 0x00000602 ∧ t.errInfo = 65 ∧ t.tree = none) = true := by decide +kernel

/-! ### SER -/

/-- V46c. -/
theorem test_ser_appends :
    after 3 (hold t6 start) (fun t => t.out.bits =
      b "1 0001000001 1 1 0100000000 0001000010 1 0001010010 1 0001000011 0001000100") = true := by decide +kernel

/-- R234. -/
theorem test_ser_without_tree :
    after 3 start (fun t => t.statusWord = 0x00000902 ∧ t.errInfo = 3) = true := by decide +kernel

/-! ### LOOKUP and CODEGEN -/

/-- R164: B. -/
theorem test_lookup_found :
    after 0x00000424 (hold t6 start) (fun t =>
      t.lkFound ∧ t.lklen = 3 ∧ t.lkbits.cells = [0xA0000000, 0, 0, 0, 0, 0, 0, 0] ∧ t.statusWord = 0x24) = true := by
  decide +kernel

/-- R164: 0 has no leaf. -/
theorem test_lookup_not_found :
    after 0x00000004 { hold t6 start with lkFound := true, lklen := 3 } (fun t =>
      !t.lkFound ∧ t.lklen = 0 ∧ t.statusWord = 4) = true := by decide +kernel

/-- V56: the codes of A, C and EOS; STATUS as in P1. -/
theorem test_codegen_fills :
    after 5 (hold t6 start) (fun t => t.statusWord = 0xC ∧ t.code.map (fun c =>
      [codeOfByte c 65, codeOfByte c 67, codeOfEos c, codeOfByte c 69]) =
        some [some (b "0"), some (b "1110"), some (b "100"), none]) = true := by decide +kernel

/-! ### ENCODE -/

/-- V68: the odd bits are consumed and dropped. -/
theorem test_encode_drops_odd_bits :
    after 6 (feed (b "01000001 010") (coded t3 start)) (fun t => t.out.bits = b "0 11" ∧ t.inp.rem = []) = true := by
  decide +kernel

/-- V66. -/
theorem test_encode_symbol_not_found :
    after 6 (feed (fileBits [0x41, 0x43, 0x42]) (coded t3 start)) (fun t =>
      t.statusWord = 0x0000020E ∧ t.errInfo = 0x43 ∧ t.out.bits = b "0" ∧ t.inp.dropped = bitsN 0x42 8) = true := by
  decide +kernel

/-! ### DECODE -/

/-- V72. -/
theorem test_decode_abracadabra :
    after 7 (feed (b "0101110011100111101011100100 111") (hold t6 start)) (fun t =>
      t.out.bits = fileBits [0x41, 0x42, 0x52, 0x41, 0x43, 0x41, 0x44, 0x41, 0x42, 0x52, 0x41] ∧
        t.inp.rem = b "111" ∧ t.statusWord = 0x14) = true := by decide +kernel

/-- R202: IN ends inside a code; DEC_DONE was set before. -/
theorem test_decode_truncated :
    after 7 (feed (b "001") { hold t3 start with decDone := true }) (fun t =>
      t.statusWord = 0x00000306 ∧ t.out.bits = fileBits [0x41, 0x41] ∧ t.errInfo = 0) = true := by decide +kernel

/-! ### WRHDR and RDHDR -/

/-- V4. -/
theorem test_wrhdr_writes :
    after 8 start (fun t => t.out.bits = b "0000 0000 0000 0000 0000 0111 0011 0110") = true := by decide +kernel

/-- R212, second row. -/
theorem test_rdhdr_mismatch :
    after 9 (feed (fileBits [0x00, 0x00, 0x07, 0x37, 0x88]) start) (fun t =>
      t.statusWord = 0x00000402 ∧ t.errInfo = 0x00000737 ∧ t.inp.dropped = bitsN 0x88 8) = true := by decide +kernel

/-! ### CLOSE, RESET and the port -/

/-- V12: 16 bits make two bytes, and no padding is drawn. -/
theorem test_close_writes_the_file :
    after 0xA { start with out := { OutStream.fresh with bits := fileBits [0x12, 0x34] } } (fun t =>
      t.out.file = some [0x12, 0x34] ∧ t.statusWord = 1 ∧ !t.inp.opened ∧ t.padDraws = 0) = true := by decide +kernel

/-- P4 line 6. -/
theorem test_reset_from_fault :
    after 0xB { faulted with nextInputs := [b "101"] } (fun t =>
      t.statusWord = 0 ∧ t.errInfo = 0 ∧ t.inp = InStream.fresh (b "101") ∧ t.out = OutStream.fresh) = true := by
  decide +kernel

/-- V18: an illegal word. -/
theorem test_illegal_word : after 0xC start (fun t => t.statusWord = 0x00000A02 ∧ t.errInfo = 0xC) = true := by
  decide +kernel

/-- P4 line 5: a FREQ write is ignored in FAULT. -/
theorem test_freq_write_in_fault :
    (match step { faulted with pending := [.wreg 65 9] } with
      | .next t => t.freq.get 65 = 0 ∧ t.statusWord = 0x00000A02 | _ => false) = true := by decide +kernel

/-- R219: with FW = 8 a FREQ write keeps the low 8 bits. -/
theorem test_freq_write_keeps_low_bits :
    (match step { start with params := { magic := 0, fw := 8 }, pending := [.wreg 65 0x1FF] } with
      | .next t => t.freq.get 65 = 0xFF | _ => false) = true := by decide +kernel

/-! ### Witnesses: values that meet the hypotheses of the statements, each clause at the edges of its range -/

/-- `s` with the given events at the port. -/
def at_port (l : List HostEvent) (s : State) : State := { s with pending := l }

/-- The single-leaf tree (R163). -/
def t1 : HuffTree := .leaf 256 1

/-- 256 Internal markers, as many leaf records as leave one node to be read, and a tree without EOS. -/
def markers : List TreeRecord := List.replicate 256 .internal
def owesOne : List TreeRecord := [.internal, .leaf 65]
def treeNoEos : HuffTree := .leaf 65 0

theorem witness_DecodeOfEncodedCommand :
    (Instr.lookup 0).wellFormed = true ∧ (Instr.lookup 256).wellFormed = true ∧ Instr.reset.wellFormed = true := by decide

theorem witness_EncodeOfDecodedWord :
    decode 0x00001004 = .ok (.lookup 256) ∧ decode 0x00000001 = .ok .build := by decide

theorem witness_StepRunsTheDecodedCommand :
    (at_port [.wreg 256 0x00000001] start).pending = .wreg 256 0x00000001 :: [] ∧ decode 0x00000001 = .ok .build := by
  decide

theorem witness_StepWaitsForTheHost : State.reset.pending = [] := rfl

/-- One for each clause: RESET; another word after CLOSE; an illegal word; a legal word; FREQ[0] and FREQ[255] in READY;
FREQ[255] after CLOSE; the numbers 257 and 511. -/
theorem witness_BusWriteFollowsTheRegisterNumber :
    ((at_port [.wreg 256 0xB] closed).pending = .wreg 256 0xB :: [] ∧ decode 0xB = .ok .reset) ∧
    ((at_port [.wreg 256 0x1] closed).pending = .wreg 256 0x1 :: [] ∧ decode 0x1 ≠ .ok .reset ∧ closed.session ≠ .ready) ∧
    ((at_port [.wreg 256 0xC] start).pending = .wreg 256 0xC :: [] ∧ start.session = .ready ∧
      decode 0xC = .error (.reservedOpcode 12)) ∧
    ((at_port [.wreg 256 0x1] start).pending = .wreg 256 0x1 :: [] ∧ decode 0x1 = .ok .build) ∧
    ((at_port [.wreg 0 7] start).pending = .wreg 0 7 :: [] ∧ (0 : RegNum).toNat < 256 ∧ (255 : RegNum).toNat < 256) ∧
    ((at_port [.wreg 255 7] closed).pending = .wreg 255 7 :: []) ∧
    ((at_port [.wreg 257 7] start).pending = .wreg 257 7 :: [] ∧ 256 < (257 : RegNum).toNat ∧
      256 < (511 : RegNum).toNat) := by decide +kernel

/-- The numbers at the edges of the clauses, each in one clause only. -/
theorem witness_BusReadReturnsTheRegister :
    (at_port [.rreg 0] start).pending = .rreg 0 :: [] ∧ (0 : RegNum).toNat < 256 ∧ (255 : RegNum).toNat < 256 ∧
    (256 : RegNum).toNat = 256 ∧ (257 : RegNum).toNat = 257 ∧ (258 : RegNum).toNat = 258 ∧
    (259 : RegNum).toNat = 259 ∧ (260 : RegNum).toNat = 260 ∧ (261 : RegNum).toNat = 261 + (0 : Fin 8).val ∧
    (268 : RegNum).toNat = 261 + (7 : Fin 8).val ∧ 269 ≤ (269 : RegNum).toNat ∧ 269 ≤ (511 : RegNum).toNat := by decide

theorem witness_StatusWordHoldsTheFields : (at_port [.wreg 257 7] start).pending = .wreg 257 7 :: [] := rfl

theorem witness_EndedSessionIgnoresAllButReset :
    closed.session ≠ .ready ∧ faulted.session ≠ .ready ∧ (HostEvent.wreg 256 0x1).isReset = false ∧
      (HostEvent.wreg 256 0xC).isReset = false ∧ (HostEvent.wreg 65 9).isReset = false ∧ (HostEvent.rreg 257).isReset = false ∧
      (at_port [.wreg 256 0x1] closed).pending = .wreg 256 0x1 :: [] := by decide

theorem witness_ResetLeavesAnEndedSession :
    faulted.session ≠ .ready ∧ (HostEvent.wreg 256 0xB).isReset = true ∧ HostEvent.rst.isReset = true ∧
      (at_port [.wreg 256 0xB] faulted).pending = .wreg 256 0xB :: [] ∧
      (at_port [.rst] closed).pending = .rst :: [] := by decide

theorem witness_ResetCommandReturnsToTheResetState :
    (at_port [.rst] start).pending = .rst :: [] ∧
    (start.session = .ready → start.inp.opened = true ∧ start.out.opened = true) ∧
    (faulted.session = .ready → faulted.inp.opened = true ∧ faulted.out.opened = true) := by decide

theorem witness_ResetGivesTheResetValues :
    ((hold t2 start).session = .ready → (hold t2 start).inp.opened = true ∧ (hold t2 start).out.opened = true) ∧
      (at_port [.rst] (hold t2 start)).pending = .rst :: [] := by decide

theorem witness_FaultEntryRecordsAndReleases : start.inp.opened = true ∧ start.out.opened = true := by decide

theorem witness_IllegalWordTakesIllegalCmd :
    (at_port [.wreg 256 0] start).Live ∧ (at_port [.wreg 256 0] start).pending = .wreg 256 0 :: [] ∧
      decode 0 = .error (.reservedOpcode 0) := by decide

theorem witness_SequencingFaultsRecordTheWord :
    (hold t2 start).Live ∧ (hold t2 start).tree ≠ none ∧ start.Live ∧ start.tree = none ∧ start.code = none := by decide

theorem witness_ReadBitsTakesTheFirstBits :
    (InStream.fresh (b "101 1")).rem = bitsN (5#3).toNat 3 ++ b "1" ∧ (InStream.fresh (b "10")).rem.length < 3 ∧
      (InStream.fresh []).rem.length < 1 := by decide +kernel

theorem witness_ClosedFileHoldsTheBits :
    (b "010101").length = padLength (b "0100000000").length ∧ (b "0100000000").length % 8 ≠ 0 ∧
      ([] : Bits).length = padLength (bitsN 65 8).length ∧ (bitsN 65 8).length % 8 = 0 ∧
      ([] : Bits).length = padLength ([] : Bits).length := by decide +kernel

theorem witness_BuildStoresTheObservedSymbols :
    (count [(65, 5)] start).session = .ready ∧ (count [(65, 5)] start).tree = none := by decide +kernel

/-- Three leaves with a tie of frequency: 65 and 66 seen once each, beside EOS. -/
theorem witness_BuildIsTheMergeOfTheQueue :
    (count [(65, 1), (66, 1)] start).session = .ready ∧ (count [(65, 1), (66, 1)] start).tree = none := by decide +kernel

/-- The largest counts, for FW = 32 and FW = 1. -/
theorem witness_RootFrequencyFitsItsWidth :
    (∀ i, ((Table.filled 256 (0xFFFFFFFF : Word)).get i).toNat < 2 ^ 32) ∧
      (∀ i, ((Table.filled 256 (1 : Word)).get i).toNat < 2 ^ 1) := by
  constructor <;> intro i <;> rw [Table.get_filled] <;> decide

theorem count_other (i j : Fin 256) (v : Word) (h : j ≠ i) : (count [(i, v)] start).freq.get j = 0 := by
  show ((Table.filled 256 (0 : Word)).set i v).get j = 0
  rw [Table.get_set_other _ _ h, Table.get_filled]

theorem count_same (i : Fin 256) (v : Word) : (count [(i, v)] start).freq.get i = v :=
  Table.get_set_same (Table.filled 256 (0 : Word)) i v

/-- All counts 0; one count of 1; one count of 2; one count of 2^32 - 1. -/
theorem witness_BuildOfAtMostOneSymbol :
    (∀ i, start.freq.get i = 0) ∧
    ((∀ j, j ≠ 7 → (count [(7, 1)] start).freq.get j = 0) ∧ (count [(7, 1)] start).freq.get 7 = 1) ∧
    ((∀ j, j ≠ 255 → (count [(255, 2)] start).freq.get j = 0) ∧
      2 ≤ ((count [(255, 2)] start).freq.get 255).toNat) ∧
    ((∀ j, j ≠ 0 → (count [(0, 0xFFFFFFFF)] start).freq.get j = 0) ∧
      2 ≤ ((count [(0, 0xFFFFFFFF)] start).freq.get 0).toNat) ∧
    start.session = .ready ∧ start.tree = none := by
  refine ⟨fun i => Table.get_filled _ i, ⟨fun j => count_other 7 j 1, count_same 7 1⟩, ⟨fun j => count_other 255 j 2, ?_⟩,
    ⟨fun j => count_other 0 j _, ?_⟩, rfl, rfl⟩ <;> rw [count_same] <;> decide

theorem witness_DeserReadsBackASerializedTree :
    t3.Valid ∧ (feed (t3.ser ++ b "111") start).inp.rem = t3.ser ++ b "111" ∧ start.session = .ready ∧
      start.tree = none ∧ (feed (t3.ser ++ b "111") start).inp.opened = true := by decide +kernel

theorem witness_DeserConsumesASerializedTree :
    ∃ u, exec .deser (feed (b "0100000000 1") start) = .next u ∧ u.session = .ready ∧ start.tree = none :=
  ⟨{ hold (.leaf 256 0) start with inp := InStream.fresh (b "1") }, next_of_answers (by decide +kernel), rfl, rfl⟩

/-- The values 257 and 511; a repeated 65, and a repeated 256 (V48). -/
theorem witness_DeserFaultsOnABadLeafRecord :
    ReadSoFar owesOne ∧ ReadSoFar [] ∧ ReadSoFar [.internal, .leaf 256] ∧
      (feed (b "1 0001000001 0100000001 11") start).Live ∧ start.tree = none ∧
      (feed (b "1 0001000001 0100000001 11") start).inp.rem =
        recordBits owesOne ++ (false :: (bitsN (257 : Sym).toNat 9 ++ b "11")) ∧
      257 ≤ (257 : Sym).toNat ∧ 257 ≤ (511 : Sym).toNat ∧ 65 ∈ recordSyms owesOne ∧
      256 ∈ recordSyms [.internal, .leaf 256] :=
  ⟨⟨by decide, by decide, by decide, by decide⟩, ⟨by decide, by decide, by decide, by decide⟩,
    ⟨by decide, by decide, by decide, by decide⟩, by decide +kernel⟩

theorem witness_DeserFaultsWithoutEos :
    (feed (treeNoEos.ser ++ b "1") start).Live ∧ start.tree = none ∧
      (feed (treeNoEos.ser ++ b "1") start).inp.rem = treeNoEos.ser ++ b "1" ∧
      treeNoEos.leaves.Nodup ∧ (∀ x ∈ treeNoEos.leaves, x.toNat ≤ 256) ∧ (256 : Sym) ∉ treeNoEos.leaves := by decide +kernel

/-- R148: 257 bits, all 1. -/
theorem witness_DeserFaultsOnThe257thMarker :
    ReadSoFar markers ∧ recordInternals markers = 256 ∧
      (feed (List.replicate 257 true) start).Live ∧ start.tree = none ∧
      (feed (List.replicate 257 true) start).inp.rem = recordBits markers ++ (true :: []) :=
  ⟨⟨by decide +kernel, by decide +kernel, by decide +kernel, by decide +kernel⟩, by decide +kernel⟩

/-- R148: nothing at all; a marker with its symbol missing; eight of nine bits; 256 markers and then the end. -/
theorem witness_DeserFaultsWhereTheStreamEnds :
    ReadSoFar [] ∧ ReadSoFar owesOne ∧ ReadSoFar markers ∧ start.Live ∧ start.tree = none ∧
      start.inp.rem = recordBits [] ++ [] ∧ (feed (b "1 0001000001 0") start).inp.rem = recordBits owesOne ++ (false :: []) ∧
      ([] : Bits).length < 9 ∧ (b "10000000").length < 9 ∧
      (feed (List.replicate 256 true) start).inp.rem = recordBits markers ++ [] :=
  ⟨⟨by decide, by decide, by decide, by decide⟩, ⟨by decide, by decide, by decide, by decide⟩,
    ⟨by decide +kernel, by decide +kernel, by decide +kernel, by decide +kernel⟩, by decide +kernel⟩

theorem witness_SerAppendsTheSerialization :
    closed.session ≠ .ready ∧ start.Live ∧ start.tree = none ∧
      (hold t3 start).session = .ready ∧ (hold t3 start).out.opened = true ∧ (hold t3 start).tree = some t3 := by decide

theorem witness_SerializationIsUniquelyReadable : t2.ser ++ [] = t2.ser := by decide +kernel

theorem witness_LookupReportsThePath :
    closed.session ≠ .ready ∧ start.Live ∧ start.tree = none ∧
      (hold t6 start).session = .ready ∧ (hold t6 start).tree = some t6 ∧ t6.path 0 = none ∧
      t6.path 256 = some (b "100") := by decide +kernel

/-- A path of the greatest length, the last register and the last bit. -/
theorem witness_LookupBitsHoldThePath :
    (List.replicate 256 true).length ≤ 256 ∧ (7 : Fin 8).val = 7 ∧ 31 < 32 ∧ ([] : Bits).length ≤ 256 := by decide +kernel

theorem witness_PathLeadsToTheLeaf : t6.Valid ∧ t1.Valid := by decide +kernel

theorem witness_CodesArePrefixFree :
    t6.Valid ∧ t6.path 66 = some (b "101") ∧ t6.path 66 = some (b "101") ∧ b "101" <+: b "101" ∧ 2 ≤ t6.nleaf ∧
      t6.path 82 = some (b "110") := by decide +kernel

theorem witness_CodegenFillsTheTable :
    closed.session ≠ .ready ∧ start.Live ∧ start.tree = none ∧ (hold t6 start).session = .ready ∧
      (hold t6 start).tree = some t6 := by decide

theorem witness_CodeTableCountsTheLeaves : t6.Valid ∧ t1.Valid := by decide +kernel

theorem witness_SingleLeafTreeHasTheEmptyCode :
    (hold t1 start).session = .ready ∧ (hold t1 start).tree = some (.leaf 256 1) ∧ (0 : Sym) ≠ 256 := by decide

/-- With seven odd bits and with none, and with no byte at all. -/
theorem witness_EncodeWritesTheCodes :
    (coded t3 start).Live ∧ (coded t3 start).code = some (codeTable t3) ∧
      (feed (fileBits [0x41, 0x42] ++ b "0101010") (coded t3 start)).inp.rem = fileBits [0x41, 0x42] ++ b "0101010" ∧
      (b "0101010").length < 8 ∧ ([] : Bits).length < 8 ∧
      (∀ x ∈ ([0x41, 0x42] : List Byte), (codeOfByte (codeTable t3) x).isSome = true) ∧
      codeOfEos (codeTable t3) = some (b "11") := by decide +kernel

theorem witness_EncodeFaultsAtAByteWithoutACode :
    (coded t3 start).Live ∧ (coded t3 start).code = some (codeTable t3) ∧
      (feed (fileBits [0x41, 0x43, 0x42]) (coded t3 start)).inp.rem =
        fileBits [0x41] ++ (bitsN (0x43 : Byte).toNat 8 ++ bitsN 0x42 8) ∧
      (codeOfByte (codeTable t3) 0x41).isSome = true ∧ codeOfByte (codeTable t3) 0x43 = none := by decide +kernel

theorem witness_DecodeWritesTheBytes :
    (hold t3 start).Live ∧ (hold t3 start).tree = some t3 ∧ t3.Valid ∧
      (∀ x ∈ ([0x41, 0x42] : List Byte), (t3.path (x.setWidth 9)).isSome = true) ∧ t3.path 256 = some (b "11") ∧
      (feed (b "0 10 11 000") (hold t3 start)).inp.rem = codesOf t3 [0x41, 0x42] ++ (b "11" ++ b "000") ∧
      t1.Valid ∧ t1.path 256 = some [] := by decide +kernel

/-- IN ends between two codes, and inside one. -/
theorem witness_DecodeFaultsWhenTheInputEnds :
    (hold t3 start).Live ∧ (hold t3 start).tree = some t3 ∧ t3.Valid ∧ (t3.path ((0x41 : Byte).setWidth 9)).isSome = true ∧
      t3.path 256 = some ([] ++ b "11") ∧ t3.path 256 = some (b "1" ++ b "1") ∧ b "1" ≠ [] ∧
      (feed (b "0") (hold t3 start)).inp.rem = codesOf t3 [0x41] ++ [] ∧
      (feed (b "0 1") (hold t3 start)).inp.rem = codesOf t3 [0x41] ++ b "1" := by decide +kernel

/-- A step to an Internal node, one that emits, and the one that ends at EOS. -/
theorem witness_TraversalStepConsumesOneBit :
    let root : Children := ⟨.leaf 65 0, .internal (.leaf 66 0) (.leaf 256 0)⟩
    decodeStep root ⟨root, InStream.fresh (b "10"), OutStream.fresh⟩ =
        .more ⟨⟨.leaf 66 0, .leaf 256 0⟩, InStream.fresh (b "0"), OutStream.fresh⟩ ∧
      decodeStep root ⟨root, InStream.fresh (b "01"), OutStream.fresh⟩ =
        .more ⟨root, InStream.fresh (b "1"), { OutStream.fresh with bits := bitsN 65 8 }⟩ ∧
      decodeStep root ⟨⟨.leaf 66 0, .leaf 256 0⟩, InStream.fresh (b "1"), OutStream.fresh⟩ =
        .ended (.finished (InStream.fresh []) OutStream.fresh) ∧
      (InStream.fresh (b "01")).rem.length < 3 := by decide +kernel

theorem witness_WrhdrAppendsTheMagic :
    closed.session ≠ .ready ∧ start.session = .ready ∧ start.out.opened = true := by decide

/-- After CLOSE; the right header; one that differs in one bit; 31 bits. -/
theorem witness_RdhdrChecksTheHeader :
    closed.session ≠ .ready ∧ start.Live ∧ (feed (bitsN 0x736 32 ++ b "0") start).inp.rem = bitsN start.params.magic.toNat 32 ++ b "0" ∧
      (feed (bitsN 0x737 32 ++ []) start).inp.rem = bitsN (0x737 : Word).toNat 32 ++ [] ∧
      (0x737 : Word) ≠ start.params.magic ∧ (feed (List.replicate 31 false) start).inp.rem.length < 32 := by decide +kernel

theorem witness_CloseReleasesBothStreams : start.Live ∧ closed.session ≠ .ready ∧ Instr.build ≠ .reset := by decide

/-- A state of a running session with one command at the port satisfies the invariant. -/
theorem witness_running_inv : Inv (at_port [.wreg 256 0x5] (hold t2 start)) where
  paramsOk := by decide
  inReady := fun _ => ⟨rfl, rfl⟩
  inReleased := fun h => absurd rfl h
  outReady := fun _ => ⟨rfl, rfl⟩
  outReleased := fun h => absurd rfl h
  errFault := ⟨fun h => absurd rfl h, fun h => nomatch h⟩
  errCode := by decide
  errInfoZero := fun _ => rfl
  counts := fun i => by
    show ((Table.filled 256 (0 : Word)).get i).toNat < 2 ^ 32
    rw [Table.get_filled]; decide
  treeOk := fun t h => by injection h with h; subst h; decide
  leafCount := by decide
  codeOk := fun _ h => nomatch h
  decDoneTree := fun h => nomatch h
  lookupNone := fun _ => ⟨rfl, rfl⟩
  lookupSome := fun h => nomatch h
  archived := fun _ h => nomatch h

theorem witness_StepKeepsTheInvariant :
    ∃ t, Inv (at_port [.wreg 256 0x5] (hold t2 start)) ∧ step (at_port [.wreg 256 0x5] (hold t2 start)) = .next t :=
  ⟨coded t2 start, witness_running_inv, next_of_answers (by decide +kernel)⟩

theorem witness_StepNeverStops : Inv (at_port [.wreg 256 0x5] (hold t2 start)) := witness_running_inv

/-- READY states with one stream closed, and one with a code table that has no code for EOS. -/
theorem witness_UnreachableUsesStopTheModel :
    let noIn : State := { start with inp := start.inp.close }
    let noOut : State := { start with out := start.out.close [] }
    let noEos : State := { start with code := some (codeTable treeNoEos) }
    (noIn.session = .ready ∧ noIn.inp.opened = false ∧ noIn.tree = none ∧ (coded t2 noIn).code ≠ none ∧
      (hold t2 noIn).tree = some (.internal (.leaf 65 0) (.leaf 256 0)) ∧ (coded t2 noIn).inp.opened = false) ∧
    (noOut.session = .ready ∧ noOut.out.opened = false ∧ (hold t2 noOut).tree ≠ none ∧ (coded t2 noOut).code ≠ none ∧
      (hold t2 noOut).tree = some (.internal (.leaf 65 0) (.leaf 256 0)) ∧ (coded t2 noOut).out.opened = false) ∧
    (noEos.Live ∧ noEos.code = some (codeTable treeNoEos) ∧ codeOfEos (codeTable treeNoEos) = none ∧
      noEos.inp.rem.length < 8) := by decide +kernel

theorem witness_TreeStaysUntilReset :
    (∃ t, (hold t2 start).tree = some t2 ∧ (at_port [.wreg 256 0x5] (hold t2 start)).pending = .wreg 256 0x5 :: [] ∧
      (HostEvent.wreg 256 0x5).isReset = false ∧ step (at_port [.wreg 256 0x5] (hold t2 start)) = .next t) ∧
    (hold t2 start).Live ∧ (hold t2 start).tree ≠ none :=
  ⟨⟨coded t2 start, by decide, rfl, by decide, next_of_answers (by decide +kernel)⟩, by decide, by decide⟩

theorem witness_FrameOfEveryCommand :
    ∃ t, Instr.codegen ≠ .reset ∧ exec .codegen (hold t2 start) = .next t ∧ t.session = (hold t2 start).session :=
  ⟨coded t2 start, by decide, next_of_answers (by decide +kernel), rfl⟩

/-- One for each of the four commands, with the session unchanged. -/
theorem witness_FrameOfTreeAndCodeCommands :
    (∃ t, exec .build start = .next t ∧ t.session = start.session) ∧
    (∃ t, exec .deser (feed t1.ser start) = .next t ∧ t.session = start.session) ∧
    (∃ t, exec .codegen (hold t2 start) = .next t ∧ t.session = start.session) ∧
    (∃ t, exec (.lookup 256) (hold t1 start) = .next t ∧ t.session = start.session) :=
  ⟨⟨hold t1 start, next_of_answers (by decide +kernel), rfl⟩, ⟨hold (.leaf 256 0) start, next_of_answers (by decide +kernel), rfl⟩,
    ⟨coded t2 start, next_of_answers (by decide +kernel), rfl⟩, ⟨{ hold t1 start with lkFound := true }, next_of_answers (by decide +kernel), rfl⟩⟩

/-- SER, ENCODE, DECODE, WRHDR and RDHDR with the session unchanged, and CLOSE. -/
theorem witness_FrameOfStreamCommands :
    (∃ t, exec .ser (hold t1 start) = .next t ∧ t.session = start.session) ∧
    (∃ t, exec .encode (coded t1 start) = .next t ∧ t.session = start.session) ∧
    (∃ t, exec .decode (hold t1 start) = .next t ∧ t.session = start.session) ∧
    (∃ t, exec .wrhdr start = .next t ∧ t.session = start.session) ∧
    (∃ t, exec .rdhdr (feed (bitsN 0x736 32) start) = .next t ∧ t.session = start.session) ∧
    (∃ t, exec .close start = .next t ∧ t.session = .closed) :=
  ⟨⟨{ hold t1 start with out := { OutStream.fresh with bits := t1.ser } }, next_of_answers (by decide +kernel), rfl⟩,
    ⟨coded t1 start, next_of_answers (by decide +kernel), rfl⟩, ⟨{ hold t1 start with decDone := true }, next_of_answers (by decide +kernel), rfl⟩,
    ⟨{ start with out := { OutStream.fresh with bits := bitsN 0x736 32 } }, next_of_answers (by decide +kernel), rfl⟩,
    ⟨start, next_of_answers (by decide +kernel), rfl⟩, ⟨closed, next_of_answers (by decide +kernel), rfl⟩⟩

theorem witness_StreamsOnlyMoveForward :
    ∃ t, Instr.rdhdr ≠ .reset ∧ start.session = .ready ∧ (feed (bitsN 0x736 32) start).inp.dropped = [] ∧
      exec .rdhdr (feed (bitsN 0x736 32) start) = .next t :=
  ⟨start, by decide, rfl, rfl, next_of_answers (by decide +kernel)⟩

/-- The input `A` with a count for `A`, and the empty input. -/
theorem witness_EncodeRunMakesTheArtefact :
    let s := feed (fileBits [0x41]) (count [(65, 1)] start)
    s.Live ∧ s.tree = none ∧ s.err = 0 ∧ s.out.bits = [] ∧ s.inp.rem = fileBits [0x41] ∧
      (∀ x ∈ ([0x41] : List Byte), ∃ i : Fin 256, i.val = x.toNat ∧ s.freq.get i ≠ 0) ∧
      start.inp.rem = fileBits [] := by decide +kernel

/-- The artefact of `A` under the tree T2, with one padding bit, and that of the empty input. -/
theorem witness_DecodeRunRestoresTheInput :
    let s := feed (bitsN 0x736 32 ++ (t2.ser ++ (codesOf t2 [0x41] ++ (b "1" ++ b "1")))) start
    s.Live ∧ s.tree = none ∧ s.err = 0 ∧ s.out.bits = [] ∧ t2.Valid ∧
      (∀ x ∈ ([0x41] : List Byte), (t2.path (x.setWidth 9)).isSome = true) ∧ t2.path 256 = some (b "1") ∧
      s.inp.rem = bitsN s.params.magic.toNat 32 ++ (t2.ser ++ (codesOf t2 [0x41] ++ (b "1" ++ b "1"))) ∧
      t1.Valid ∧ t1.path 256 = some [] := by decide +kernel

/-- The first session of `A`, and a second session that holds a file (V81). -/
theorem witness_DecodeOfEncodedFileIsTheFile :
    let s₁ := feed (fileBits [0x41]) (count [(65, 1)] start)
    let s₂ := feed (fileBits [0x00, 0x00, 0x07, 0x36, 0x88, 0x28, 0x02]) start
    (s₁.Live ∧ s₁.tree = none ∧ s₁.err = 0 ∧ s₁.out.bits = [] ∧ s₁.inp.rem = fileBits [0x41] ∧
      ∀ x ∈ ([0x41] : List Byte), ∃ i : Fin 256, i.val = x.toNat ∧ s₁.freq.get i ≠ 0) ∧
    (s₂.Live ∧ s₂.tree = none ∧ s₂.err = 0 ∧ s₂.out.bits = [] ∧ s₂.params.magic = s₁.params.magic ∧
      s₂.inp.rem = fileBits [0x00, 0x00, 0x07, 0x36, 0x88, 0x28, 0x02]) := by decide +kernel

end Sys2Proof.Tests
end

section
/-! SUPPORT. What any command but RESET can make of a state, in one relation: a claim about every step is then one case
for each kind of effect, not one for each command. -/

namespace Sys2Proof.Machine

/-- What a command other than RESET, or an illegal word, can make of `s`. The streams are only consumed and extended
(R62), DEC_DONE is only set beside a tree (R27), and a tree is only stored where there was none (R44). -/
inductive State.CommandEffect (s : State) : State → Prop where
  /-- The session has ended (R240). -/
  | ignored : s.session ≠ .ready → CommandEffect s s
  /-- A fault was taken, perhaps after some work on the streams (R236, R237). -/
  | faulted {r u d} (f : HcFault) (info : Word) : s.session = .ready → s.inp.ConsumedTo r → s.out.ExtendedTo u →
      (d = true → s.decDone = true) →
      CommandEffect s (State.faulted f info { s with inp := r, out := u, decDone := d })
  /-- SER, ENCODE, DECODE, WRHDR or RDHDR worked on the streams. -/
  | streamed {r u d} : s.session = .ready → s.inp.ConsumedTo r → s.out.ExtendedTo u →
      (d = true → s.decDone = true ∨ s.tree ≠ none) →
      CommandEffect s { s with inp := r, out := u, decDone := d }
  /-- BUILD or DESER stored a tree. -/
  | treeStored {r} {t : HuffTree} : s.session = .ready → s.inp.ConsumedTo r → s.tree = none → t.Valid →
      CommandEffect s { s with inp := r, tree := some t, nleaf := BitVec.ofNat 9 t.nleaf }
  /-- LOOKUP found the symbol. -/
  | pathFound {t : HuffTree} {sym : Sym} {p : Bits} : s.session = .ready → s.tree = some t → t.path sym = some p →
      CommandEffect s { s with lkFound := true, lklen := BitVec.ofNat 9 p.length, lkbits := packPath p }
  /-- LOOKUP did not find the symbol. -/
  | pathAbsent : s.session = .ready →
      CommandEffect s { s with lkFound := false, lklen := 0, lkbits := Table.filled 8 0 }
  /-- CODEGEN stored the table. -/
  | codeStored {t : HuffTree} : s.session = .ready → s.tree = some t →
      CommandEffect s { s with code := some (codeTable t) }
  /-- CLOSE ended the session. -/
  | closed : s.session = .ready → CommandEffect s { s.released with session := .closed }

theorem State.CommandEffect.of_ignored {s t : State} (h : s.IgnoredTo t) : s.CommandEffect t := by
  obtain ⟨hs, rfl⟩ := h
  exact .ignored hs

/-- A fault taken before the command did anything. -/
theorem State.CommandEffect.of_fault {f : HcFault} {info : Word} {s t : State} (h : s.FaultedTo f info t) :
    s.CommandEffect t := by
  obtain ⟨hs, _, _, rfl⟩ := h
  exact .faulted f info hs (.refl _) (.refl _) id

/-- Every command but RESET has one of these effects. -/
theorem exec_effect {i : Instr} {s t : State} (hi : i ≠ .reset) (h : exec i s = .next t) : s.CommandEffect t := by
  cases i with
  | build =>
    rcases execBuild_next h with h | ⟨_, h⟩ | ⟨hs, ht, rfl⟩
    · exact .of_ignored h
    · exact .of_fault h
    · exact .treeStored hs (.refl _) ht (buildRoot_valid _)
  | deser =>
    rcases execDeser_next h with h | ⟨_, h⟩ | ⟨_, f, info, r, hr, hs, _, _, rfl⟩ |
      ⟨hs, _, ht, u, r, hu, _, hin, rfl⟩
    · exact .of_ignored h
    · exact .of_fault h
    · exact .faulted f info hs hr (.refl _) id
    · have hr : s.inp.ConsumedTo r := ⟨r.rem, by rw [hin]; exact List.suffix_append _ _, by rw [hin]⟩
      exact .treeStored hs hr ht hu
  | ser =>
    rcases execSer_next h with h | ⟨_, h⟩ | ⟨hs, _, u, _, rfl⟩
    · exact .of_ignored h
    · exact .of_fault h
    · exact .streamed hs (.refl _) ⟨_, rfl⟩ .inl
  | lookup sym =>
    rcases execLookup_next h with h | ⟨_, h⟩ | ⟨hs, u, hu, ⟨_, rfl⟩ | ⟨p, hp, rfl⟩⟩
    · exact .of_ignored h
    · exact .of_fault h
    · exact .pathAbsent hs
    · exact .pathFound hs hu hp
  | codegen =>
    rcases execCodegen_next h with h | ⟨_, h⟩ | ⟨hs, u, hu, rfl⟩
    · exact .of_ignored h
    · exact .of_fault h
    · exact .codeStored hs hu
  | encode =>
    rcases execEncode_next h with h | ⟨_, h⟩ | ⟨v, r, u, hr, hu, hs, _, _, rfl⟩ | ⟨hs, c, r, u, _, hr, hu, rfl⟩
    · exact .of_ignored h
    · exact .of_fault h
    · exact .faulted _ _ hs hr hu id
    · exact .streamed hs hr hu .inl
  | decode =>
    rcases execDecode_next h with h | ⟨_, h⟩ | ⟨_, r, u, hr, hu, hs, _, _, rfl⟩ | ⟨hs, ht, r, u, hr, hu, rfl⟩
    · exact .of_ignored h
    · exact .of_fault h
    · exact .faulted (s := s) _ _ hs hr hu (fun h => nomatch h)
    · exact .streamed hs hr hu fun _ => .inr ht
  | wrhdr =>
    rcases execWrhdr_next h with h | ⟨hs, _, rfl⟩
    · exact .of_ignored h
    · exact .streamed hs (.refl _) ⟨_, rfl⟩ .inl
  | rdhdr =>
    rcases execRdhdr_next h with h | ⟨info, r, hr, hs, _, _, rfl⟩ | ⟨hs, r, hr, rfl⟩
    · exact .of_ignored h
    · exact .faulted _ _ hs hr (.refl _) id
    · exact .streamed hs hr (.refl _) .inl
  | close =>
    rcases execClose_next h with h | ⟨hs, _, _, rfl⟩
    · exact .of_ignored h
    · exact .closed hs
  | reset => exact absurd rfl hi

/-- An event at the port is the next step (R222). -/
theorem step_of_pending {s : State} {e : HostEvent} {rest : List HostEvent} (h : s.pending = e :: rest) :
    step s = transact e { s with pending := rest } := by
  simp [step, h]

end Sys2Proof.Machine
end

section
/-! PROOF. Reset, by pin or by command, and the state the machine starts in: the reset values of R43. -/

namespace Sys2Proof.Machine

theorem State.reset_atReset : State.reset.AtReset where
  session := rfl
  err := rfl
  errInfo := rfl
  freq := Table.get_filled 0
  tree := rfl
  nleaf := rfl
  code := rfl
  decDone := rfl
  lkFound := rfl
  lklen := rfl
  lkbits := Table.get_filled 0
  status := by decide
  inp := ⟨[], rfl⟩
  out := rfl

theorem freshSession_atReset (s : State) : (freshSession s).AtReset :=
  { State.reset_atReset with inp := ⟨_, rfl⟩ }

/-- Going back to reset answers a fresh session, of `s` itself or of `s` with its streams released (R218). -/
theorem resetCore_fresh {s : State} (h : s.session = .ready → s.inp.opened = true ∧ s.out.opened = true) :
    ∃ u, resetCore s = .next (freshSession u) := by
  by_cases hs : s.session = .ready
  · obtain ⟨hi, ho⟩ := h hs
    exact ⟨_, resetCore_ready hs hi ho⟩
  · exact ⟨_, resetCore_ended hs⟩

/-- Settles O12: both resets answer a fresh session, whose fields are the reset values. -/
theorem resetGivesTheResetValues : Obligations.ResetGivesTheResetValues := by
  refine ⟨State.reset_atReset, fun s hopen => ⟨?_, fun rest hp => ?_⟩⟩
  · obtain ⟨u, hu⟩ := resetCore_fresh hopen
    exact ⟨_, hu, freshSession_atReset u⟩
  · obtain ⟨u, hu⟩ := resetCore_fresh (s := { s with pending := rest }) hopen
    exact ⟨_, (step_of_pending hp).trans hu, freshSession_atReset u⟩

end Sys2Proof.Machine
end

section
/-! PROOF. The invariant `Inv` holds at reset and every step keeps it: one lemma for each kind of effect. -/

namespace Sys2Proof.Machine

/-- A state with the reset values meets the invariant, whatever its parameters and its archive of released streams. -/
theorem State.AtReset.inv {s : State} (h : s.AtReset) (hp : s.params.Ok) (hl : s.lkbits = Table.filled 8 0)
    (ha : ∀ o ∈ s.archive, o.Released) : Inv s where
  paramsOk := hp
  inReady := fun _ => by obtain ⟨q, hq⟩ := h.inp; simp [hq]
  inReleased := fun hs => absurd h.session hs
  outReady := fun _ => by rw [h.out]; exact ⟨rfl, rfl⟩
  outReleased := fun hs => absurd h.session hs
  errFault := by simp [h.err, h.session]
  errCode := by simp [h.err]
  errInfoZero := fun _ => h.errInfo
  counts := fun i => by rw [h.freq i]; exact Nat.two_pow_pos _
  treeOk := by simp [h.tree]
  leafCount := by simp [h.tree, h.nleaf]
  codeOk := by simp [h.code]
  decDoneTree := by simp [h.decDone]
  lookupNone := fun _ => ⟨h.lklen, hl⟩
  lookupSome := by simp [h.lkFound]
  archived := ha

/-- Settles O49: the reset values meet every clause, and FW is 32. -/
theorem resetSatisfiesTheInvariant : Obligations.ResetSatisfiesTheInvariant :=
  State.reset_atReset.inv (by decide) rfl (fun _ h => nomatch h)

/-- A new session after `s`: the OUT of `s`, released, joins the archive (R218, R261). -/
theorem freshSession_inv {s : State} (hp : s.params.Ok) (ho : s.out.Released) (ha : ∀ o ∈ s.archive, o.Released) :
    Inv (freshSession s) := by
  refine (freshSession_atReset s).inv hp rfl fun o hm => ?_
  rcases List.mem_append.mp hm with hm | hm
  · exact ha o hm
  · rw [List.mem_singleton.mp hm]; exact ho

theorem resetCore_inv {s t : State} (h : Inv s) (hr : resetCore s = .next t) : Inv t := by
  rcases resetCore_next hr with ⟨_, _, _, rfl⟩ | ⟨hs, rfl⟩
  · exact freshSession_inv h.paramsOk (s.out.close_released _) h.archived
  · exact freshSession_inv h.paramsOk (h.outReleased hs) h.archived

theorem HcFault.code_ne_zero (f : HcFault) : f.code ≠ 0 := by cases f <;> decide

theorem HcFault.code_le (f : HcFault) : f.code.toNat ≤ 10 := by cases f <;> decide

namespace Inv

variable {s : State}

theorem err_of_not_fault (h : Inv s) (hs : s.session ≠ .fault) : s.err = 0 :=
  not_not.mp fun he => hs (h.errFault.mp he)

/-- Without a tree there is no code table and no LOOKUP result (R45). -/
theorem code_of_no_tree (h : Inv s) (ht : s.tree = none) : s.code = none := by
  cases hc : s.code with
  | none => rfl
  | some c =>
    obtain ⟨t, hs, _⟩ := h.codeOk c hc
    rw [ht] at hs; cases hs

theorem lkFound_of_no_tree (h : Inv s) (ht : s.tree = none) : s.lkFound = false := by
  cases hf : s.lkFound with
  | false => rfl
  | true =>
    obtain ⟨t, _, _, hs, _⟩ := h.lookupSome hf
    rw [ht] at hs; cases hs

/-- The path of a symbol in the stored tree fits LKLEN (R35). -/
theorem path_length_toNat (h : Inv s) {t : HuffTree} {x : Sym} {p : Bits} (ht : s.tree = some t)
    (hp : t.path x = some p) : (BitVec.ofNat 9 p.length).toNat = p.length := by
  have := t.path_length_le x hp
  have := (h.treeOk t ht).nint_le
  rw [BitVec.toNat_ofNat]; exact Nat.mod_eq_of_lt (by omega)

/-- What the host has at its side of the port does not matter. -/
theorem hostSide (h : Inv s) (l : List HostEvent) (v : List Word) : Inv { s with pending := l, replies := v } :=
  { h with }

theorem freqSet (h : Inv s) (i : Fin 256) (v : Word) :
    Inv { s with freq := s.freq.set i (lowBits s.params.fw v) } :=
  { h with
    counts := fun j => by
      by_cases hj : j = i
      · subst hj
        simpa [lowBits_toNat] using Nat.mod_lt v.toNat (Nat.two_pow_pos s.params.fw)
      · simpa [Table.get_set_other _ _ hj] using h.counts j }

/-- Work on open streams keeps the invariant (R62), and so does a change of DEC_DONE that leaves a tree beside it. -/
theorem streamed (h : Inv s) (hs : s.session = .ready) {r : InStream} {u : OutStream} {d : Bool}
    (hr : s.inp.ConsumedTo r) (hu : s.out.ExtendedTo u) (hd : d = true → s.decDone = true ∨ s.tree ≠ none) :
    Inv { s with inp := r, out := u, decDone := d } := by
  obtain ⟨q, _, rfl⟩ := hr
  obtain ⟨w, rfl⟩ := hu
  exact
    { h with
      inReady := h.inReady
      inReleased := fun he => absurd hs he
      outReady := h.outReady
      outReleased := fun he => absurd hs he
      decDoneTree := fun he => (hd he).elim h.decDoneTree Option.isSome_iff_ne_none.mpr }

/-- Releasing the streams of a running session ends it (R73): without a fault record in CLOSED, and in FAULT with the
record of a fault (R24, R25). -/
theorem ended (h : Inv s) {session : Session} {err : BitVec 4} {info : Word} (he : session ≠ .ready)
    (hf : err ≠ 0 ↔ session = .fault) (hc : err.toNat ≤ 10) (hi : err = 0 → info = 0) :
    Inv { s.released with session := session, err := err, errInfo := info } :=
  { h with
    inReady := fun hs => absurd hs he
    inReleased := fun _ => ⟨rfl, rfl⟩
    outReady := fun hs => absurd hs he
    outReleased := fun _ => s.out.close_released _
    errFault := hf
    errCode := hc
    errInfoZero := hi }

theorem faulted (h : Inv s) (f : HcFault) (info : Word) : Inv (s.faulted f info) :=
  h.ended (session := .fault) (by decide) (iff_of_true f.code_ne_zero rfl) f.code_le
    (absurd · f.code_ne_zero)

theorem closed (h : Inv s) (hs : s.session = .ready) : Inv { s.released with session := .closed } :=
  have h0 : s.err = 0 := h.err_of_not_fault (by rw [hs]; decide)
  h.ended (session := .closed) (by decide) (iff_of_false (not_not.mpr h0) (by decide)) h.errCode h.errInfoZero

theorem treeStored (h : Inv s) (hn : s.tree = none) {t : HuffTree} (ht : t.Valid) :
    Inv { s with tree := some t, nleaf := BitVec.ofNat 9 t.nleaf } :=
  { h with
    treeOk := fun u hu => by cases hu; exact ht
    leafCount := ht.nleaf_toNat
    codeOk := by simp [h.code_of_no_tree hn]
    decDoneTree := fun _ => rfl
    lookupSome := by simp [h.lkFound_of_no_tree hn] }

theorem pathFound (h : Inv s) {t : HuffTree} {x : Sym} {p : Bits} (ht : s.tree = some t) (hp : t.path x = some p) :
    Inv { s with lkFound := true, lklen := BitVec.ofNat 9 p.length, lkbits := packPath p } :=
  { h with
    lookupNone := fun he => nomatch he
    lookupSome := fun _ => ⟨t, x, p, ht, hp, h.path_length_toNat ht hp, rfl⟩ }

theorem pathAbsent (h : Inv s) : Inv { s with lkFound := false, lklen := 0, lkbits := Table.filled 8 0 } :=
  { h with
    lookupNone := fun _ => ⟨rfl, rfl⟩
    lookupSome := fun he => nomatch he }

theorem codeStored (h : Inv s) {t : HuffTree} (ht : s.tree = some t) : Inv { s with code := some (codeTable t) } :=
  { h with codeOk := fun c hc => by cases hc; exact ⟨t, ht, rfl⟩ }

theorem of_effect {t : State} (h : Inv s) (he : s.CommandEffect t) : Inv t := by
  cases he with
  | ignored => exact h
  | faulted f info hs hr hu hd => exact (h.streamed hs hr hu fun e => .inl (hd e)).faulted f info
  | streamed hs hr hu hd => exact h.streamed hs hr hu hd
  | treeStored hs hr hn ht => exact (h.streamed hs hr (.refl _) .inl).treeStored hn ht
  | pathFound _ ht hp => exact h.pathFound ht hp
  | pathAbsent => exact h.pathAbsent
  | codeStored _ ht => exact h.codeStored ht
  | closed hs => exact h.closed hs

end Inv

theorem exec_inv {i : Instr} {s t : State} (h : Inv s) (he : exec i s = .next t) : Inv t := by
  by_cases hi : i = .reset
  · subst hi; exact resetCore_inv h he
  · exact h.of_effect (exec_effect hi he)

theorem transact_inv {e : HostEvent} {s t : State} (h : Inv s) (ht : transact e s = .next t) : Inv t := by
  rcases transact_next ht with ⟨_, i, _, _, he⟩ | ⟨w, _, hf⟩ | ⟨_, v, i, _, _, rfl⟩ | ⟨_, _, _, rfl⟩ | ⟨n, _, rfl⟩ |
    ⟨_, hr⟩
  · exact exec_inv h he
  · exact h.of_effect (.of_fault hf)
  · exact h.freqSet i v
  · exact h
  · exact h.hostSide _ _
  · exact resetCore_inv h hr

/-- Settles O50: an idle step changes nothing, and every event at the port keeps the invariant. -/
theorem stepKeepsTheInvariant : Obligations.StepKeepsTheInvariant := by
  intro s t h hstep
  cases hp : s.pending with
  | nil =>
    have hw : step s = .next s := by simp [step, hp]
    rw [hw] at hstep
    cases hstep
    exact h
  | cons e rest =>
    rw [step_of_pending hp] at hstep
    exact transact_inv (h.hostSide rest s.replies) hstep

end Sys2Proof.Machine
end

section
/-! PROOF. LOOKUP's registers hold the path, first element in bit 31 (R35). -/

namespace Sys2Proof.Machine

/-- Bit `31 - j` of a register is element j of the at most 32 elements packed in it, 0 beyond them (R35). -/
theorem packWord_getLsbD {q : Bits} {j : Nat} (hq : q.length ≤ 32) (hj : j < 32) :
    (packWord q).getLsbD (31 - j) = q.getD j false := by
  have hlen : (q ++ List.replicate (32 - q.length) false).length = 32 := by simp; omega
  have hbit := val_testBit (q ++ List.replicate (32 - q.length) false) j (by omega)
  have hlt : 31 - j < 32 := by omega
  simp only [hlen] at hbit
  rw [packWord, BitVec.getLsbD_ofNat, hbit]
  by_cases h : j < q.length
  · simp [List.getElem_append_left h, h, hlt]
  · simp [List.getElem_append_right (Nat.le_of_not_lt h), h]

/-- Settles O35: register k is packed from the 32 elements after the first 32 k. -/
theorem lookupBitsHoldThePath : Obligations.LookupBitsHoldThePath := by
  intro p k j _ hj
  have hslice : ((p.drop (32 * k.val)).take 32).getD j false = p.getD (32 * k.val + j) false := by
    simp [List.getD_eq_getElem?_getD, hj]
  rw [packPath, Table.get_tabulate, packWord_getLsbD (by simp) hj, hslice]

end Sys2Proof.Machine
end

section
/-! PROOF. STATUS shows STATE, the flags and ERR (R28). -/

namespace Sys2Proof.Machine

/-- Every bit of STATUS: STATE in 1:0, the flags in 5:2, ERR in 11:8, 0 elsewhere (R28). -/
theorem statusWord_getLsbD (s : State) (i : Nat) :
    s.statusWord.getLsbD i =
      if i < 2 then s.session.bits.getLsbD i
      else if i = 2 then s.tree.isSome
      else if i = 3 then s.code.isSome
      else if i = 4 then s.decDone
      else if i = 5 then s.lkFound
      else if i < 8 then false
      else s.err.getLsbD (i - 8) := by
  simp only [State.statusWord, BitVec.getLsbD_append, BitVec.getLsbD_ofBool, BitVec.getLsbD_zero]
  match i with
  | 0 | 1 | 2 | 3 | 4 | 5 | 6 | 7 => simp [State.treeValid, State.codeValid]
  | k + 8 =>
    by_cases hk : k < 4
    · simp [hk]
    · simp [hk, s.err.getLsbD_of_ge k (Nat.le_of_not_lt hk)]

theorem statusWord_getLsbD_err (s : State) (k : Nat) : s.statusWord.getLsbD (8 + k) = s.err.getLsbD k := by
  rw [statusWord_getLsbD, if_neg (by omega), if_neg (by omega), if_neg (by omega), if_neg (by omega),
    if_neg (by omega), if_neg (by omega), Nat.add_sub_cancel_left]

theorem portReg_status : portReg 257 = .status := by decide

/-- Settles O9: every field is read bit by bit, and register 257 ignores a write. -/
theorem statusWordHoldsTheFields : Obligations.StatusWordHoldsTheFields := by
  intro s
  refine ⟨?session, statusWord_getLsbD s 2, statusWord_getLsbD s 3, statusWord_getLsbD s 4, statusWord_getLsbD s 5,
    ?reserved, ?err, ?top, fun v rest hp => ?write⟩
  case session =>
    have hbits : s.statusWord.extractLsb' 0 2 = s.session.bits := by
      ext i hi; simp [statusWord_getLsbD, hi, BitVec.getLsbD_eq_getElem]
    rw [hbits]
    cases s.session <;> rfl
  case reserved =>
    ext i hi
    match i, hi with
    | 0, _ => simpa using statusWord_getLsbD s 6
    | 1, _ => simpa using statusWord_getLsbD s 7
  case err =>
    ext i hi
    simp [statusWord_getLsbD_err, hi, BitVec.getLsbD_eq_getElem]
  case top =>
    ext i hi
    have hk : 12 + i = 8 + (4 + i) := by omega
    simp [hk, statusWord_getLsbD_err]
  case write => rw [step_of_pending hp, transact, busWrite, portReg_status]

end Sys2Proof.Machine
end

section
/-! PROOF. What no command but RESET changes: the frame of every effect, and the tree of a session (R44). -/

namespace Sys2Proof.Machine

/-- Once there is a tree, no command but RESET touches it or NLEAF (R44). -/
theorem State.CommandEffect.sameTree {s t : State} (h : s.CommandEffect t) (ht : s.tree ≠ none) : s.SameTree t := by
  cases h with
  | treeStored _ _ hn _ => exact absurd hn ht
  | ignored | faulted | streamed | pathFound | pathAbsent | codeStored | closed => exact ⟨rfl, rfl⟩

/-- Only a fault writes ERR and ERRINFO, and it leaves READY (R24, R236). -/
theorem State.CommandEffect.frame {s t : State} (h : s.CommandEffect t) :
    s.SameSurroundings t ∧ t.freq = s.freq ∧ s.out.bits <+: t.out.bits ∧
      (t.session = s.session → t.err = s.err ∧ t.errInfo = s.errInfo) := by
  have same : s.SameSurroundings s := ⟨rfl, rfl, rfl, rfl, rfl⟩
  cases h with
  | faulted f info hs _ hu _ =>
    obtain ⟨w, rfl⟩ := hu
    exact ⟨same, rfl, ⟨w, rfl⟩, fun he => nomatch he.trans hs⟩
  | streamed _ _ hu _ =>
    obtain ⟨w, rfl⟩ := hu
    exact ⟨same, rfl, ⟨w, rfl⟩, fun _ => ⟨rfl, rfl⟩⟩
  | ignored | treeStored | pathFound | pathAbsent | codeStored | closed =>
    exact ⟨same, rfl, ⟨[], List.append_nil _⟩, fun _ => ⟨rfl, rfl⟩⟩

/-- Settles O54: every effect of a command has the frame. -/
theorem frameOfEveryCommand : Obligations.FrameOfEveryCommand :=
  fun _ _ _ hi h => (exec_effect hi h).frame

theorem transact_sameTree {e : HostEvent} {s t : State} (ht : s.tree ≠ none) (he : e.isReset = false)
    (h : transact e s = .next t) : s.SameTree t := by
  rcases transact_next h with ⟨w, i, rfl, hd, hx⟩ | ⟨_, _, hf⟩ | ⟨_, _, _, _, _, rfl⟩ | ⟨_, _, _, rfl⟩ | ⟨_, _, rfl⟩ |
    ⟨rfl, _⟩
  · have hi : i ≠ .reset := by
      rintro rfl
      simp [HostEvent.isReset, hd] at he
    exact (exec_effect hi hx).sameTree ht
  · exact (State.CommandEffect.of_fault hf).sameTree ht
  · exact ⟨rfl, rfl⟩
  · exact ⟨rfl, rfl⟩
  · exact ⟨rfl, rfl⟩
  · cases he

/-- The sequencing fault of BUILD and DESER, which stand behind `needNoTree` (R234). -/
theorem needNoTree_faults {s : State} (hl : s.Live) (ht : s.tree ≠ none) (w : Word)
    (k : Host.Outcome State Fault Refusal) :
    ∃ t, whenReady s (needNoTree w s k) = .next t ∧ FaultEntered .seq w s t ∧ t.tree = s.tree ∧ t.nleaf = s.nleaf := by
  obtain ⟨hs, hi, ho⟩ := hl
  obtain ⟨u, hu⟩ := Option.ne_none_iff_exists'.mp ht
  refine ⟨s.faulted .seq w, ?_, s.faulted_entered .seq w, rfl, rfl⟩
  rw [whenReady_ready hs, needNoTree_of_some hu, raise_opened hi ho]

/-- Settles O53: an event that is not a reset stores a tree only where there was none. -/
theorem treeStaysUntilReset : Obligations.TreeStaysUntilReset := by
  refine ⟨fun s t tree e rest ht hp he h => ?_, fun s hl ht => ⟨?_, ?_⟩⟩
  · rw [step_of_pending hp] at h
    obtain ⟨htree, hleaf⟩ := transact_sameTree (by simp [ht]) he h
    exact ⟨htree.trans ht, hleaf⟩
  · exact needNoTree_faults hl ht (encode .build) _
  · exact needNoTree_faults hl ht (encode .deser) _

end Sys2Proof.Machine
end

section
/-! PROOF. The operations of the Bit Stream contract (R67 to R72), and that no command repositions a stream (R62). -/

namespace Sys2Proof.Machine

/-- Settles O18: the two ways a read of n bits can go. -/
theorem readBitsTakesTheFirstBits : Obligations.ReadBitsTakesTheFirstBits := by
  rintro n ⟨q, opened, dropped⟩
  refine ⟨fun v rest hq => ?_, fun hlen => readBits_short hlen opened dropped⟩
  obtain rfl : q = bitsN v.toNat n ++ rest := hq
  exact readBits_append v rest opened dropped

/-- Settles O19: both are repeated writes of one bit. -/
theorem writeBitsAppends : Obligations.WriteBitsAppends :=
  fun o => ⟨fun v n => writeBits_eq v n o, fun p => put_eq p o⟩

/-- A whole number of bytes needs no padding (R72). -/
theorem padLength_whole {len : Nat} (h : len % 8 = 0) : padLength len = 0 := by
  simp [padLength, h]

theorem padLength_partial {len : Nat} (h : len % 8 ≠ 0) : padLength len = 8 - len % 8 := by
  unfold padLength; omega

/-- Settles O20: bits and padding are a whole number of bytes, which the file holds without loss. -/
theorem closedFileHoldsTheBits : Obligations.ClosedFileHoldsTheBits := by
  refine ⟨fun _ => ⟨rfl, rfl⟩, fun o pad hpad => ?_⟩
  have hwhole : (o.bits ++ pad).length % 8 = 0 := by
    rw [List.length_append, hpad]; exact length_add_padLength _
  have hnone : o.bits.length % 8 = 0 → pad = [] := fun h =>
    List.eq_nil_of_length_eq_zero (hpad.trans (padLength_whole h))
  refine ⟨rfl, rfl, ⟨_, o.close_file pad, fileBits_packBytes _ hwhole, fun hempty => ?_⟩, hnone,
    fun h => hpad.trans (padLength_partial h)⟩
  rw [hnone (by simp [hempty]), hempty]
  rfl

/-- Reads leave an end of the bits that were there (R62). -/
theorem InStream.ConsumedTo.suffix {s r : InStream} (h : s.ConsumedTo r) : r.rem <:+ s.rem := by
  obtain ⟨q, hq, rfl⟩ := h
  exact hq

theorem InStream.ConsumedTo.dropped {s r : InStream} (h : s.ConsumedTo r) : r.dropped = s.dropped := by
  obtain ⟨q, _, rfl⟩ := h
  rfl

/-- What is left on IN, or was left at its close, is an end of what was there (R62). -/
theorem State.CommandEffect.inp_suffix {s t : State} (h : s.CommandEffect t) (hd : s.inp.dropped = []) :
    t.inp.rem ++ t.inp.dropped <:+ s.inp.rem := by
  have reads {r : InStream} (hr : s.inp.ConsumedTo r) : r.rem ++ r.dropped <:+ s.inp.rem := by
    rw [hr.dropped, hd, List.append_nil]; exact hr.suffix
  cases h with
  | faulted _ _ _ hr _ _ => exact hr.suffix
  | streamed _ hr _ _ => exact reads hr
  | treeStored _ hr _ _ => exact reads hr
  | closed => exact List.suffix_refl _
  | ignored | pathFound | pathAbsent | codeStored => exact reads (.refl _)

/-- Settles O57: IN by the effect of the command, OUT by its frame. -/
theorem streamsOnlyMoveForward : Obligations.StreamsOnlyMoveForward := by
  intro i s t hi _ hd h
  obtain ⟨_, _, hout, _⟩ := (exec_effect hi h).frame
  exact ⟨(exec_effect hi h).inp_suffix hd, hout⟩

end Sys2Proof.Machine
end

section
/-! PROOF. From a state that satisfies the invariant every step answers (R73, R248): a READY session has both streams
open, work keeps them open, and the code table has a code for EOS. -/

namespace Sys2Proof.Machine

/-- The model goes on from here: the outcome is a next state. -/
def Answers (o : Host.Outcome State Fault Refusal) : Prop := ∃ t, o = .next t

theorem Answers.next (t : State) : Answers (.next t) := ⟨t, rfl⟩

theorem InStream.ConsumedTo.opened {s r : InStream} (h : s.ConsumedTo r) : r.opened = s.opened := by
  obtain ⟨q, _, rfl⟩ := h
  rfl

theorem OutStream.ExtendedTo.opened {o u : OutStream} (h : o.ExtendedTo u) : u.opened = o.opened := by
  obtain ⟨w, rfl⟩ := h
  rfl

section Live

variable {s : State} (hl : s.Live)
include hl

/-- A fault is taken after any work on the streams, which leaves them open (R236, R237). -/
theorem State.Live.raise_answers (f : HcFault) (info : Word) {r : InStream} {u : OutStream} {d : Bool}
    (hr : s.inp.ConsumedTo r) (hu : s.out.ExtendedTo u) :
    Answers (raise f info { s with inp := r, out := u, decDone := d }) := by
  obtain ⟨_, hi, ho⟩ := hl
  exact ⟨_, raise_opened (hr.opened.trans hi) (hu.opened.trans ho) f info⟩

theorem State.Live.needTree_answers (w : Word) {k : HuffTree → Host.Outcome State Fault Refusal}
    (h : ∀ t, s.tree = some t → Answers (k t)) : Answers (needTree w s k) := by
  cases ht : s.tree with
  | none => rw [needTree_of_none ht]; exact hl.raise_answers _ _ (.refl _) (.refl _)
  | some t => rw [needTree_of_some ht]; exact h t ht

theorem State.Live.needNoTree_answers (w : Word) {k : Host.Outcome State Fault Refusal} (h : Answers k) :
    Answers (needNoTree w s k) := by
  cases ht : s.tree with
  | none => rwa [needNoTree_of_none ht]
  | some t => rw [needNoTree_of_some ht]; exact hl.raise_answers _ _ (.refl _) (.refl _)

theorem State.Live.needCode_answers (w : Word) {k : Table (Option Bits) 257 → Host.Outcome State Fault Refusal}
    (h : ∀ c, s.code = some c → Answers (k c)) : Answers (needCode w s k) := by
  cases hc : s.code with
  | none => rw [needCode_of_none hc]; exact hl.raise_answers _ _ (.refl _) (.refl _)
  | some c => rw [needCode_of_some hc]; exact h c hc

theorem State.Live.usingIn_answers {k : Host.Outcome State Fault Refusal} (h : Answers k) :
    Answers (usingIn s k) := by
  obtain ⟨_, hi, _⟩ := hl
  rwa [usingIn_opened hi]

theorem State.Live.usingOut_answers {k : Host.Outcome State Fault Refusal} (h : Answers k) :
    Answers (usingOut s k) := by
  obtain ⟨_, _, ho⟩ := hl
  rwa [usingOut_opened ho]

end Live

/-- A tree that was read leaves a stream that was only consumed (R145). -/
theorem parseTree_ok_consumedTo {inp : InStream} {t : HuffTree} {d : ParseState} (h : parseTree inp = .ok (t, d)) :
    inp.ConsumedTo d.inp := by
  obtain ⟨_, hinp, _⟩ := parseTree_ok h
  exact ⟨d.inp.rem, by rw [hinp]; exact List.suffix_append _ _, by rw [hinp]⟩

namespace Inv

variable {s : State} (h : Inv s)
include h

theorem live (hs : s.session = .ready) : s.Live :=
  ⟨hs, (h.inReady hs).left, (h.outReady hs).left⟩

/-- CODE[256] is never absent: EOS is a leaf of the tree the table is made of (R180). -/
theorem eosCode {c : Table (Option Bits) 257} (hc : s.code = some c) : codeOfEos c ≠ none := by
  obtain ⟨t, ht, rfl⟩ := h.codeOk c hc
  obtain ⟨_, _, heos⟩ := h.treeOk t ht
  rw [codeOfEos_codeTable, Ne, t.path_eq_none_iff]
  exact not_not.mpr heos

/-- A command answers when it answers in READY with both streams open; elsewhere it is ignored (R240). -/
theorem whenReady_answers {k : Host.Outcome State Fault Refusal} (hk : s.Live → Answers k) :
    Answers (whenReady s k) := by
  by_cases hs : s.session = .ready
  · rw [whenReady_ready hs]; exact hk (h.live hs)
  · rw [whenReady_ended hs]; exact .next s

theorem execBuild_answers : Answers (execBuild s) :=
  h.whenReady_answers fun hl => hl.needNoTree_answers _ (.next _)

theorem execDeser_answers : Answers (execDeser s) := by
  refine h.whenReady_answers fun hl => hl.needNoTree_answers _ (hl.usingIn_answers ?_)
  cases hp : parseTree s.inp with
  | error e => exact hl.raise_answers _ _ (parseTree_error hp) (.refl _)
  | ok p =>
    obtain ⟨t, d⟩ := p
    by_cases heos : Config.eos ∈ d.seen
    · simp only [heos, if_true]; exact .next _
    · simp only [heos, if_false]; exact hl.raise_answers _ _ (parseTree_ok_consumedTo hp) (.refl _)

theorem execSer_answers : Answers (execSer s) :=
  h.whenReady_answers fun hl => hl.needTree_answers _ fun _ _ => hl.usingOut_answers (.next _)

theorem execLookup_answers (sym : Sym) : Answers (execLookup sym s) := by
  refine h.whenReady_answers fun hl => hl.needTree_answers _ fun t _ => ?_
  cases t.path sym with
  | none => exact .next _
  | some p => exact .next _

theorem execCodegen_answers : Answers (execCodegen s) :=
  h.whenReady_answers fun hl => hl.needTree_answers _ fun _ _ => .next _

theorem execEncode_answers : Answers (execEncode s) := by
  refine h.whenReady_answers fun hl => hl.needCode_answers _ fun c hc =>
    hl.usingIn_answers (hl.usingOut_answers ?_)
  rcases encodeLoop_cases c (s.inp.rem.length + 1) s.inp s.out with ⟨_, _, he, _, _⟩ | ⟨_, _, _, he, hr, hu⟩ |
    ⟨_, hnone⟩
  · rw [he]; exact .next _
  · rw [he]; exact hl.raise_answers _ _ hr hu
  · exact absurd hnone (h.eosCode hc)

theorem execDecode_answers : Answers (execDecode s) := by
  refine h.whenReady_answers fun hl => hl.needTree_answers _ fun t _ => ?_
  cases t with
  | leaf x f => exact .next _
  | internal l r =>
    refine hl.usingIn_answers (hl.usingOut_answers ?_)
    obtain ⟨_, _, he | he, hr, hu⟩ := decodeRun_cases ⟨l, r⟩ (s.inp.rem.length + 1) ⟨⟨l, r⟩, s.inp, s.out⟩
    · rw [he]; exact .next _
    · rw [he]; exact hl.raise_answers _ _ hr hu

theorem execWrhdr_answers : Answers (execWrhdr s) :=
  h.whenReady_answers fun hl => hl.usingOut_answers (.next _)

theorem execRdhdr_answers : Answers (execRdhdr s) := by
  refine h.whenReady_answers fun hl => hl.usingIn_answers ?_
  have hr := readBits_consumedTo 32 s.inp
  rcases readBits_cases 32 s.inp with ⟨v, r, _, hb⟩ | ⟨_, hb⟩
  · rw [hb] at hr ⊢
    by_cases hv : v = s.params.magic
    · simp only [hv, if_true]; exact .next _
    · simp only [hv, if_false]; exact hl.raise_answers _ _ hr (.refl _)
  · rw [hb] at hr ⊢
    exact hl.raise_answers _ _ hr (.refl _)

theorem execClose_answers : Answers (execClose s) := by
  refine h.whenReady_answers fun ⟨_, hi, ho⟩ => ?_
  rw [closeStreams_opened hi ho]
  exact .next _

theorem resetCore_answers : Answers (resetCore s) := by
  obtain ⟨u, hu⟩ := resetCore_fresh (s := s) fun hs => (h.live hs).right
  exact ⟨_, hu⟩

theorem exec_answers (i : Instr) : Answers (exec i s) := by
  cases i with
  | build => exact h.execBuild_answers
  | deser => exact h.execDeser_answers
  | ser => exact h.execSer_answers
  | lookup sym => exact h.execLookup_answers sym
  | codegen => exact h.execCodegen_answers
  | encode => exact h.execEncode_answers
  | decode => exact h.execDecode_answers
  | wrhdr => exact h.execWrhdr_answers
  | rdhdr => exact h.execRdhdr_answers
  | close => exact h.execClose_answers
  | reset => exact h.resetCore_answers

theorem writeCmd_answers (w : Word) : Answers (writeCmd w s) := by
  unfold writeCmd
  cases decode w with
  | ok i => exact h.exec_answers i
  | error _ => exact h.whenReady_answers fun hl => hl.raise_answers _ _ (.refl _) (.refl _)

theorem transact_answers (e : HostEvent) : Answers (transact e s) := by
  cases e with
  | rst => exact h.resetCore_answers
  | rreg n => exact .next _
  | wreg n v =>
    rw [transact, busWrite]
    cases portReg n with
    | cmd => exact h.writeCmd_answers v
    | freq i => exact h.whenReady_answers fun _ => .next _
    | status | errInfo | nleaf | lklen | lkbits | reserved => exact .next s

end Inv

/-- Settles O51: the core waits, or the event at the port has an outcome. -/
theorem stepNeverStops : Obligations.StepNeverStops := by
  intro s h
  cases hp : s.pending with
  | nil => exact ⟨s, by simp [step, hp]⟩
  | cons e rest =>
    rw [step_of_pending hp]
    exact (h.hostSide rest s.replies).transact_answers e

end Sys2Proof.Machine
end

section
/-! PROOF. The two named stops of the model, in states that no run reaches (log entries 7 and 8). -/

namespace Sys2Proof.Machine

theorem usingIn_closed {s : State} (h : s.inp.opened = false) (k : Host.Outcome State Fault Refusal) :
    usingIn s k = .fault .closedStream := by simp [usingIn, h]

theorem usingOut_closed {s : State} (h : s.out.opened = false) (k : Host.Outcome State Fault Refusal) :
    usingOut s k = .fault .closedStream := by simp [usingOut, h]

/-- ENCODE and DECODE use both streams: one closed stream is enough to stop. -/
theorem usingIn_usingOut_closed {s : State} (h : s.inp.opened = false ∨ s.out.opened = false)
    (k : Host.Outcome State Fault Refusal) : usingIn s (usingOut s k) = .fault .closedStream := by
  cases hi : s.inp.opened with
  | false => exact usingIn_closed hi _
  | true =>
    rw [usingIn_opened hi]
    exact usingOut_closed (h.resolve_left (by simp [hi])) k

theorem closeStreams_closed {s : State} (h : s.inp.opened = false ∨ s.out.opened = false) :
    closeStreams s = .fault .closedStream := by
  have hb : (s.inp.opened && s.out.opened) = false := by rcases h with h | h <;> simp [h]
  simp [closeStreams, hb]

theorem raise_closed {s : State} (h : s.inp.opened = false ∨ s.out.opened = false) (f : HcFault) (info : Word) :
    raise f info s = .fault .closedStream := by
  rw [raise, closeStreams_closed (s := { s with err := f.code, errInfo := info }) h, andThen_fault]

theorem resetCore_closed {s : State} (hs : s.session = .ready) (h : s.inp.opened = false ∨ s.out.opened = false) :
    resetCore s = .fault .closedStream := by
  simp [resetCore, hs, closeStreams_closed h]

/-- ENCODE's loop at an input without a whole byte and a table without a code for EOS (R180). -/
theorem encodeLoop_noTerminator {c : Table (Option Bits) 257} {inp : InStream} (he : codeOfEos c = none)
    (hlen : inp.rem.length < 8) (fuel : Nat) (out : OutStream) :
    encodeLoop c (fuel + 1) inp out = .noTerminator := by
  obtain ⟨q, opened, dropped⟩ := inp
  rw [encodeLoop, readBits_short hlen]
  simp only [encodeFinish, he]

section Ready

variable {s : State} (hs : s.session = .ready)
include hs

theorem execEncode_closed (h : s.inp.opened = false ∨ s.out.opened = false) (hc : s.code ≠ none) :
    execEncode s = .fault .closedStream := by
  obtain ⟨c, hc⟩ := Option.ne_none_iff_exists'.mp hc
  rw [execEncode, whenReady_ready hs, needCode_of_some hc, usingIn_usingOut_closed h]

/-- A tree of one leaf is decoded without a bit (R195), so only an Internal root comes to the streams. -/
theorem execDecode_closed (h : s.inp.opened = false ∨ s.out.opened = false) {l r : HuffTree}
    (ht : s.tree = some (.internal l r)) : execDecode s = .fault .closedStream := by
  rw [execDecode, whenReady_ready hs, needTree_of_some ht]
  exact usingIn_usingOut_closed h _

theorem execDeser_closed (h : s.inp.opened = false) (ht : s.tree = none) :
    execDeser s = .fault .closedStream := by
  rw [execDeser, whenReady_ready hs, needNoTree_of_none ht, usingIn_closed h]

theorem execSer_closed (h : s.out.opened = false) (ht : s.tree ≠ none) : execSer s = .fault .closedStream := by
  obtain ⟨t, ht⟩ := Option.ne_none_iff_exists'.mp ht
  rw [execSer, whenReady_ready hs, needTree_of_some ht, usingOut_closed h]

theorem execRdhdr_closed (h : s.inp.opened = false) : execRdhdr s = .fault .closedStream := by
  rw [execRdhdr, whenReady_ready hs, usingIn_closed h]

theorem execWrhdr_closed (h : s.out.opened = false) : execWrhdr s = .fault .closedStream := by
  rw [execWrhdr, whenReady_ready hs, usingOut_closed h]

theorem execClose_closed (h : s.inp.opened = false ∨ s.out.opened = false) :
    execClose s = .fault .closedStream := by
  rw [execClose, whenReady_ready hs, closeStreams_closed h, andThen_fault]

end Ready

theorem execEncode_noEosCode {s : State} {c : Table (Option Bits) 257} (hl : s.Live) (hc : s.code = some c)
    (he : codeOfEos c = none) (hlen : s.inp.rem.length < 8) : execEncode s = .fault .noEosCode := by
  obtain ⟨hs, hi, ho⟩ := hl
  rw [execEncode, whenReady_ready hs, needCode_of_some hc, usingIn_opened hi, usingOut_opened ho,
    encodeLoop_noTerminator he hlen]

/-- Settles O52: each command by the first closed stream it comes to, and ENCODE by its loop. -/
theorem unreachableUsesStopTheModel : Obligations.UnreachableUsesStopTheModel := by
  intro s hs
  refine ⟨fun hin => ?inClosed, fun hout => ?outClosed, fun h => ?release, fun _ => execEncode_noEosCode⟩
  case inClosed =>
    exact ⟨execRdhdr_closed hs hin, execDeser_closed hs hin, execEncode_closed hs (.inl hin),
      fun _ _ => execDecode_closed hs (.inl hin)⟩
  case outClosed =>
    exact ⟨execWrhdr_closed hs hout, execSer_closed hs hout, execEncode_closed hs (.inr hout),
      fun _ _ => execDecode_closed hs (.inr hout)⟩
  case release => exact ⟨execClose_closed hs h, resetCore_closed hs h, raise_closed h⟩

end Sys2Proof.Machine
end

section
/-! PROOF. Command words: the encoder and the decoder are inverse, and the illegal words are the reserved ones
(R91 to R96). -/

namespace Sys2Proof

/-! ### The fields of a word -/

/-- Format N cuts a word into ZERO and OP (R91). -/
theorem zeroFieldN_append_opField (w : Word) : zeroFieldN w ++ opField w = w :=
  BitVec.extractLsb'_append_extractLsb'

theorem zeroFieldN_append (z : BitVec 28) (op : BitVec 4) : zeroFieldN (z ++ op) = z :=
  BitVec.extractLsb'_append_eq_left

theorem opField_append (z : BitVec 28) (op : BitVec 4) : opField (z ++ op) = op :=
  BitVec.extractLsb'_append_eq_right

theorem symField_append (z : BitVec 28) (op : BitVec 4) : symField (z ++ op) = z.extractLsb' 0 9 :=
  BitVec.extractLsb'_append_eq_of_le (by decide)

theorem zeroFieldS_append (z : BitVec 28) (op : BitVec 4) : zeroFieldS (z ++ op) = z.extractLsb' 9 19 :=
  BitVec.extractLsb'_append_eq_of_le (by decide)

/-- Format S cuts ZERO of format N into its own ZERO and SYM (R93). -/
theorem zeroFieldS_append_symField (w : Word) : zeroFieldS w ++ symField w = zeroFieldN w := by
  have hzero := zeroFieldS_append (zeroFieldN w) (opField w)
  have hsym := symField_append (zeroFieldN w) (opField w)
  rw [zeroFieldN_append_opField] at hzero hsym
  rw [hzero, hsym]
  exact BitVec.extractLsb'_append_extractLsb'

theorem symField_encode_lookup (sym : Sym) : symField (encode (.lookup sym)) = sym :=
  (symField_append (0#19 ++ sym) 4).trans BitVec.extractLsb'_append_eq_right

theorem opField_toNat (w : Word) : (opField w).toNat = w.toNat % 16 := rfl

theorem zeroFieldN_toNat (w : Word) : (zeroFieldN w).toNat = w.toNat / 16 := by
  have := w.isLt
  rw [zeroFieldN, BitVec.extractLsb'_toNat, Nat.shiftRight_eq_div_pow]
  omega

theorem zeroFieldS_toNat (w : Word) : (zeroFieldS w).toNat = w.toNat / 2 ^ 13 := by
  have := w.isLt
  rw [zeroFieldS, BitVec.extractLsb'_toNat, Nat.shiftRight_eq_div_pow]
  omega

theorem symField_toNat (w : Word) : (symField w).toNat = w.toNat / 16 % 512 := by
  rw [symField, BitVec.extractLsb'_toNat, Nat.shiftRight_eq_div_pow]

/-! ### The opcodes of format N -/

/-- The word of a format N command is its OP with zeros above it (R91). -/
theorem encode_of_formatN : ∀ (op : BitVec 4), ∀ i ∈ formatN op, i.wellFormed = true ∧ encode i = 0#28 ++ op := by
  decide

/-- Every command but LOOKUP has a format N opcode (R94). -/
theorem formatN_opcode {i : Instr} (h : ∀ sym, i ≠ .lookup sym) : formatN i.opcode = some i := by
  cases i with
  | lookup sym => exact absurd rfl (h sym)
  | build | deser | ser | codegen | encode | decode | wrhdr | rdhdr | close | reset => rfl

/-- The opcodes of format N are 1 to 3 and 5 to 11 (R94). -/
theorem formatN_isSome_iff :
    ∀ op : BitVec 4, (formatN op).isSome = true ↔ op.toNat ≠ 0 ∧ op.toNat ≠ 4 ∧ op.toNat < 12 := by
  decide

/-! ### The decoder -/

/-- The two ways the decoder accepts a word: format S and format N (R95). -/
theorem decode_eq_ok_iff (w : Word) (i : Instr) :
    decode w = .ok i ↔
      (opField w = 4#4 ∧ zeroFieldS w = 0#19 ∧ (symField w).toNat ≤ 256 ∧ i = .lookup (symField w)) ∨
        (formatN (opField w) = some i ∧ zeroFieldN w = 0#28) := by
  unfold decode
  by_cases hop : opField w = 4#4
  · have hnone : formatN 4#4 = none := rfl
    by_cases hzero : zeroFieldS w = 0#19
    · by_cases hsym : (symField w).toNat ≤ 256
      · simp [hop, hzero, hsym, hnone, Nat.not_lt.mpr hsym, eq_comm (a := i)]
      · simp [hop, hzero, hsym, hnone, Nat.lt_of_not_le hsym]
    · simp [hop, hzero, hnone]
  · cases hformat : formatN (opField w) with
    | none => simp [hop]
    | some j => by_cases hzero : zeroFieldN w = 0#28 <;> simp [hop, hzero]

/-- A word is illegal when it is the word of no command (R95). -/
theorem exists_decode_error_iff (w : Word) : (∃ e, decode w = .error e) ↔ ¬ ∃ i, decode w = .ok i := by
  cases decode w <;> simp

/-- A word is legal for one of ten opcodes with zeros above, or for LOOKUP of 0 to 256 (R96). -/
theorem exists_decode_ok_iff (w : Word) :
    (∃ i, decode w = .ok i) ↔
      (opField w = 4#4 ∧ zeroFieldS w = 0#19 ∧ (symField w).toNat ≤ 256) ∨
        ((formatN (opField w)).isSome = true ∧ zeroFieldN w = 0#28) := by
  simp only [decode_eq_ok_iff, exists_or, exists_and_left, exists_and_right, exists_eq, and_true,
    Option.isSome_iff_exists]

/-! ### The obligations -/

/-- Settles O1: format S for LOOKUP, format N for every other command. -/
theorem decodeOfEncodedCommand : Obligations.DecodeOfEncodedCommand := by
  intro i hwf
  rw [decode_eq_ok_iff]
  by_cases hlookup : ∃ sym, i = .lookup sym
  · obtain ⟨sym, rfl⟩ := hlookup
    obtain ⟨hop, hzero⟩ := Laws.OpField.lookup sym
    rw [symField_encode_lookup]
    exact .inl ⟨hop, hzero, of_decide_eq_true hwf, rfl⟩
  · have hformat : formatN i.opcode = some i := formatN_opcode (not_exists.mp hlookup)
    obtain ⟨-, hword⟩ := encode_of_formatN _ i hformat
    rw [hword, opField_append, zeroFieldN_append]
    exact .inr ⟨hformat, rfl⟩

/-- Settles O2: the fields that the decoder accepts make up the word of the command it reads. -/
theorem encodeOfDecodedWord : Obligations.EncodeOfDecodedWord := by
  intro w i h
  rcases (decode_eq_ok_iff w i).mp h with ⟨hop, hzero, hsym, rfl⟩ | ⟨hformat, hzero⟩
  · refine ⟨decide_eq_true hsym, ?_⟩
    calc encode (.lookup (symField w)) = zeroFieldS w ++ symField w ++ opField w := by rw [hop, hzero]; rfl
      _ = w := by rw [zeroFieldS_append_symField, zeroFieldN_append_opField]
  · obtain ⟨hwf, hword⟩ := encode_of_formatN _ i hformat
    refine ⟨hwf, ?_⟩
    calc encode i = zeroFieldN w ++ opField w := by rw [hword, hzero]
      _ = w := zeroFieldN_append_opField w

/-- Settles O3: the negation of what the decoder accepts, field by field. -/
theorem illegalWordsAreTheReservedOnes : Obligations.IllegalWordsAreTheReservedOnes := by
  intro w
  rw [exists_decode_error_iff, exists_decode_ok_iff, formatN_isSome_iff]
  simp only [← BitVec.toNat_inj, opField_toNat, zeroFieldN_toNat, zeroFieldS_toNat, symField_toNat, BitVec.toNat_ofNat]
  omega

/-- Settles O4: fifteen fixed words. -/
theorem specWordsDecode : Obligations.SpecWordsDecode := by
  unfold Obligations.SpecWordsDecode; decide

end Sys2Proof
end

section
/-! PROOF. A step with a legal word at CMD is the command the word decodes to (R97, R219). -/

namespace Sys2Proof.Machine

/-- A legal word written to CMD does its command (R219). -/
theorem transact_command {w : Word} {i : Instr} (h : decode w = .ok i) (s : State) :
    transact (.wreg 256 w) s = exec i s := by
  rw [transact, busWrite, portReg_cmd]
  simp only [writeCmd, h]

theorem tableWord_toNat (w : Word) : tableWord 32 w.toNat = w := by
  rw [tableWord, Nat.mod_eq_of_lt w.isLt, BitVec.ofNat_toNat, BitVec.setWidth_eq]

/-- Settles O5: the event is taken off the port and does the command. -/
theorem stepRunsTheDecodedCommand : Obligations.StepRunsTheDecodedCommand := by
  refine ⟨fun s w rest i hp hd => ?_, fun s w i hd => ?_⟩
  · rw [step_of_pending hp, transact_command hd]
  · rw [State.withFetchWord, tableWord_toNat, step_of_pending (issueWord_pending w s)]
    exact transact_command hd s

end Sys2Proof.Machine
end

section
/-! PROOF. The serialized tree: its length, and that it can be read in one way only (R102, R103). -/

namespace Sys2Proof.Machine

/-- A leaf record has ten bits and an Internal marker one (R102). -/
theorem HuffTree.ser_length (t : HuffTree) : t.ser.length = 10 * t.nleaf + t.nint := by
  induction t with
  | leaf s f => simp [ser, nleaf, nint]
  | internal l r hl hr => simp [ser, nleaf, nint, hl, hr]; omega

/-- Settles O32: with one leaf more than Internal nodes the sum is 11 L - 1. -/
theorem serializedTreeLength : Obligations.SerializedTreeLength := by
  intro t
  have hlength := t.ser_length
  have hcount := t.nleaf_eq
  exact ⟨hlength, by omega⟩

/-- Settles O33: the grammar tells where a tree ends, so nothing can follow one inside another. -/
theorem serializationIsUniquelyReadable : Obligations.SerializationIsUniquelyReadable := by
  refine ⟨fun t u => ⟨fun h => ?_, fun h => ?_⟩, fun t u q h => ?_⟩
  · exact (t.ser_append_inj u [] [] (by rw [h])).1
  · rw [← t.shape_ser, h, u.shape_ser]
  · exact (t.ser_append_inj u q [] (by rw [h, List.append_nil])).2

end Sys2Proof.Machine
end

section
/-! PROOF. No code of a legal tree begins another (R106), and the codes have 1 to 256 bits, the single leaf's aside
(R167). -/

namespace Sys2Proof.Machine

/-- No path goes on below a leaf (R105). -/
theorem HuffTree.walk_leaf {x : Sym} {f : Nat} {p : Bits} {u : HuffTree} (h : (HuffTree.leaf x f).walk p = some u) :
    p = [] ∧ u = .leaf x f := by
  cases p with
  | nil => exact ⟨rfl, (Option.some.inj h).symm⟩
  | cons b p => cases h

/-- A path that begins with another symbol's path would go on below that symbol's leaf (R106). -/
theorem HuffTree.eq_of_path_isPrefix {t : HuffTree} {x y : Sym} {p q : Bits} (hx : t.path x = some p)
    (hy : t.path y = some q) (hpq : p <+: q) : x = y := by
  obtain ⟨r, rfl⟩ := hpq
  obtain ⟨f, hwx⟩ := t.walk_path hx
  obtain ⟨g, hwy⟩ := t.walk_path hy
  rw [walk_append, hwx] at hwy
  obtain ⟨-, hleaf⟩ := walk_leaf hwy
  cases hleaf
  rfl

/-- Only the root of a single-leaf tree has the empty path (R167). -/
theorem HuffTree.nleaf_of_path_nil {t : HuffTree} {x : Sym} (h : t.path x = some []) : t.nleaf = 1 := by
  obtain ⟨f, hw⟩ := t.walk_path h
  cases Option.some.inj hw
  rfl

/-- Settles O37: a path has at most as many bits as the tree has Internal nodes. -/
theorem codesArePrefixFree : Obligations.CodesArePrefixFree := by
  intro t x y p q hvalid hx hy
  refine ⟨HuffTree.eq_of_path_isPrefix hx hy, (t.path_length_le x hx).trans hvalid.nint_le, fun hleaves => ?_⟩
  rw [Nat.one_le_iff_ne_zero, Ne, List.length_eq_zero_iff]
  rintro rfl
  have hsingle := HuffTree.nleaf_of_path_nil hx
  omega

end Sys2Proof.Machine
end

section
/-! PROOF. ENCODEFILE (R117): what each of its six commands does in a running session, and the artefact the run leaves
(R110, R111, R264). -/

namespace Sys2Proof.Machine

/-! ### The tree that BUILD makes of the counts of the input -/

/-- A byte with a count that is not 0 has a code in the built tree (R128). -/
theorem buildRoot_path_isSome {freq : Table Word 256} {b : Byte}
    (h : ∃ i : Fin 256, i.val = b.toNat ∧ freq.get i ≠ 0) : ((buildRoot freq).tree.path (b.setWidth 9)).isSome = true := by
  obtain ⟨i, hi, hcount⟩ := h
  have hsym : b.setWidth 9 = BitVec.ofNat 9 i.val := by rw [hi, BitVec.ofNat_toNat]
  have hne : (freq.get i).toNat ≠ 0 := fun h0 => hcount (BitVec.eq_of_toNat_eq h0)
  rw [HuffTree.path_isSome_iff, ← HuffTree.leafRecords_map_fst]
  exact List.mem_map_of_mem (f := Prod.fst) ((mem_buildRoot freq _ _).mpr (.inr ⟨i, hsym, rfl, hne⟩))

/-- EOS has a code in every legal tree (R31, R167). -/
theorem HuffTree.Valid.exists_path_eos {t : HuffTree} (h : t.Valid) : ∃ p, t.path 256 = some p := by
  obtain ⟨-, -, heos⟩ := h
  exact Option.isSome_iff_exists.mp ((t.path_isSome_iff 256).mpr heos)

/-! ### The commands -/

theorem exec_build_ready {s : State} (hs : s.session = .ready) (ht : s.tree = none) :
    exec .build s = .next { s with
      tree := some (buildRoot s.freq).tree, nleaf := BitVec.ofNat 9 (buildLeafCount s.freq) } := by
  rw [exec, execBuild, whenReady_ready hs, needNoTree_of_none ht]

theorem exec_codegen_ready {s : State} {t : HuffTree} (hs : s.session = .ready) (ht : s.tree = some t) :
    exec .codegen s = .next { s with code := some (codeTable t) } := by
  rw [exec, execCodegen, whenReady_ready hs, needTree_of_some ht]

theorem exec_wrhdr_ready {s : State} (hs : s.session = .ready) (ho : s.out.opened = true) :
    exec .wrhdr s = .next { s with out := { s.out with bits := s.out.bits ++ bitsN s.params.magic.toNat 32 } } := by
  rw [exec, execWrhdr, whenReady_ready hs, usingOut_opened ho, writeBits_eq]

theorem exec_ser_ready {s : State} {t : HuffTree} (hs : s.session = .ready) (ho : s.out.opened = true)
    (ht : s.tree = some t) :
    exec .ser s = .next { s with out := { s.out with bits := s.out.bits ++ t.ser } } := by
  rw [exec, execSer, whenReady_ready hs, needTree_of_some ht, usingOut_opened ho, emitTree_eq]

/-- ENCODE on bytes that all have codes, with fewer than eight odd bits after them (R180 to R182). -/
theorem exec_encode_live {s : State} {c : Table (Option Bits) 257} {bytes : List Byte} {odd eosCode : Bits}
    (hl : s.Live) (hc : s.code = some c) (hin : s.inp.rem = fileBits bytes ++ odd) (hodd : odd.length < 8)
    (hbytes : ∀ b ∈ bytes, (codeOfByte c b).isSome = true) (heos : codeOfEos c = some eosCode) :
    exec .encode s = .next { s with
      inp := { s.inp with rem := [] }
      out := { s.out with bits := s.out.bits ++ (tableCodesOf c bytes ++ eosCode) } } := by
  obtain ⟨hs, hi, ho⟩ := hl
  have hfuel : bytes.length < s.inp.rem.length + 1 := by simp [hin]; omega
  have hinp : s.inp = ⟨fileBits bytes ++ odd, s.inp.opened, s.inp.dropped⟩ := by rw [← hin]
  have hloop := encodeLoop_finished (o := s.inp.opened) (dr := s.inp.dropped) (oo := s.out.opened) (fl := s.out.file)
    c bytes odd eosCode s.out.bits hfuel hodd hbytes heos
  rw [← hinp] at hloop
  rw [exec, execEncode, whenReady_ready hs, needCode_of_some hc, usingIn_opened hi, usingOut_opened ho, hloop]

theorem exec_close_live {s : State} (hl : s.Live) : exec .close s = .next { s.released with session := .closed } := by
  obtain ⟨hs, hi, ho⟩ := hl
  rw [exec, execClose, whenReady_ready hs, closeStreams_opened hi ho, andThen_next]

/-! ### The run -/

/-- The next command of a run answers `t`, and the rest of the run goes on from there (R222). -/
theorem runCommands_cons {i : Instr} {is : List Instr} {s t u : State} (h : exec i s = .next t)
    (hrest : runCommands is t = .next u) : runCommands (i :: is) s = .next u := by
  rw [runCommands, h, andThen_next, hrest]

/-- `s` before the CLOSE of ENCODEFILE: the tree and its codes are stored, IN is used up, and OUT holds the artefact of
`bytes` (R110, R111). -/
def State.artefactWritten (s : State) (bytes : List Byte) (eosCode : Bits) : State :=
  let t := (buildRoot s.freq).tree
  { s with
    tree := some t
    nleaf := BitVec.ofNat 9 (buildLeafCount s.freq)
    code := some (codeTable t)
    inp := { s.inp with rem := [] }
    out := { s.out with
      bits := s.out.bits ++ (bitsN s.params.magic.toNat 32 ++ (t.ser ++ (codesOf t bytes ++ eosCode))) } }

/-- The six commands of ENCODEFILE, one after the other (R117). -/
theorem runCommands_encodeFile {s : State} {bytes : List Byte} {eosCode : Bits} (hl : s.Live) (ht : s.tree = none)
    (hin : s.inp.rem = fileBits bytes)
    (hbytes : ∀ b ∈ bytes, ((buildRoot s.freq).tree.path (b.setWidth 9)).isSome = true)
    (heos : (buildRoot s.freq).tree.path 256 = some eosCode) :
    runCommands encodeFile s = .next { (s.artefactWritten bytes eosCode).released with session := .closed } := by
  obtain ⟨hs, hi, ho⟩ := hl
  refine runCommands_cons (exec_build_ready hs ht) ?_
  refine runCommands_cons (exec_codegen_ready hs rfl) ?_
  refine runCommands_cons (exec_wrhdr_ready hs ho) ?_
  refine runCommands_cons (exec_ser_ready hs ho rfl) ?_
  refine runCommands_cons (exec_encode_live (odd := []) ⟨hs, hi, ho⟩ rfl (by simpa using hin) (by decide)
    (by simpa only [codeOfByte_codeTable] using hbytes) (by simpa only [codeOfEos_codeTable] using heos)) ?_
  refine runCommands_cons (exec_close_live ⟨hs, hi, ho⟩) ?_
  simp only [runCommands, State.artefactWritten, tableCodesOf_codeTable, List.append_assoc]

/-- Settles O58: the run of the six commands on the tree that BUILD makes of the counts. -/
theorem encodeRunMakesTheArtefact : Obligations.EncodeRunMakesTheArtefact := by
  intro s bytes hl ht herr hout hin hcounts
  have hvalid := buildRoot_valid s.freq
  have hbytes := fun b hb => buildRoot_path_isSome (hcounts b hb)
  obtain ⟨eosCode, heos⟩ := hvalid.exists_path_eos
  refine ⟨_, _, eosCode, runCommands_encodeFile hl ht hin hbytes heos, ⟨rfl, herr⟩, rfl, hvalid, heos, hbytes,
    OutStream.close_released _ _, ?_⟩
  change s.out.bits ++ _ = _
  rw [hout, List.nil_append]

end Sys2Proof.Machine
end

section
/-! PROOF. BUILD (R121 to R129): the tree it stores is the one merge of its queue, the root's frequency is the sum of
the counts and of EOS's own, and the trees of at most one observed symbol. -/

namespace Sys2Proof.Machine

/-! ### The leaves and the frequency of the root -/

/-- One leaf for each count that is not 0, and one for EOS (R121, R126). -/
theorem buildLeafCount_eq (freq : Table Word 256) :
    buildLeafCount freq = 1 + (freq.cells.filter (· ≠ 0)).length := by
  rw [buildLeafCount, byteLeaves_length, Nat.add_comm]

/-- Settles O21: the tree is legal and its leaves are those of the first queue. -/
theorem buildStoresTheObservedSymbols : Obligations.BuildStoresTheObservedSymbols := by
  intro s hs ht
  refine ⟨(buildRoot s.freq).tree, ?_, buildRoot_valid s.freq, mem_buildRoot s.freq, ?_⟩
  · rw [exec_build_ready hs ht, buildRoot_nleaf]
  · rw [buildRoot_nleaf, buildLeafCount_eq]

/-- Merging loses no frequency (R127). -/
theorem buildRoot_freq (freq : Table Word 256) : (buildRoot freq).freq = 1 + (freq.cells.map BitVec.toNat).sum := by
  rw [buildRoot_eq, (mergeAll_keeps _ _ _ _ (Nat.lt_succ_self _)).2, ← byteLeaves_freq freq.cells 0 0]
  exact List.sum_cons

/-- 256 counts of `fw` bits, and 1 for EOS, need at most `fw + 9` bits (R127). -/
theorem one_add_sum_counts_lt {freq : Table Word 256} {fw : Nat} (h : ∀ i, (freq.get i).toNat < 2 ^ fw) :
    1 + (freq.cells.map BitVec.toNat).sum < 2 ^ (fw + 9) := by
  have hle : ∀ n ∈ freq.cells.map BitVec.toNat, n ≤ 2 ^ fw := by
    intro n hn
    obtain ⟨c, hc, rfl⟩ := List.mem_map.mp hn
    obtain ⟨i, rfl⟩ := freq.exists_get_of_mem hc
    exact (h i).le
  have hsum := List.sum_le_card_nsmul _ _ hle
  rw [List.length_map, freq.len, smul_eq_mul] at hsum
  have hpos : 0 < 2 ^ fw := Nat.two_pow_pos fw
  rw [Nat.pow_add]
  omega

/-- Settles O23: the root has the sum of the frequencies of the first queue. -/
theorem rootFrequencyFitsItsWidth : Obligations.RootFrequencyFitsItsWidth := by
  intro freq fw h
  refine ⟨buildRoot_freq freq, ?_⟩
  rw [buildRoot_freq]
  exact one_add_sum_counts_lt h

/-! ### The merge of the queue -/

/-- The first queue is numbered in the order of insertion, EOS last (R122, R123). -/
theorem initialQueue_seq (freq : Table Word 256) :
    (initialQueue freq).map Entry.seq = List.range (buildLeafCount freq) := by
  rw [initialQueue, List.map_append, byteLeaves_seq, buildLeafCount, List.range_succ, List.range_eq_range']
  rfl

theorem initialQueue_freshSeq (freq : Table Word 256) : FreshSeq (buildLeafCount freq) (initialQueue freq) := by
  rw [FreshSeq, initialQueue_seq]
  refine ⟨List.nodup_range, fun x hx => ?_⟩
  have hmem := List.mem_map_of_mem (f := Entry.seq) hx
  rwa [initialQueue_seq, List.mem_range] at hmem

/-- BUILD's loop carries out the merge of R125 and R126 on the first queue. -/
theorem buildRoot_mergesTo (freq : Table Word 256) :
    MergesTo (buildLeafCount freq) (initialQueue freq) (buildRoot freq) := by
  have hperm : (initialQueue freq).Perm
      (eosEntry (byteLeaves 0 0 freq.cells).length :: byteLeaves 0 0 freq.cells) := List.perm_append_singleton _ _
  rw [buildRoot_eq]
  exact (mergeAll_mergesTo _ _ _ _ (Nat.lt_succ_self _) ((initialQueue_freshSeq freq).perm hperm)).perm hperm.symm

/-- Settles O22: the loop reaches a root of the queue, and a queue has only one. -/
theorem buildIsTheMergeOfTheQueue : Obligations.BuildIsTheMergeOfTheQueue := by
  refine ⟨fun freq e => ⟨fun h => h.unique (.refl _) (buildRoot_mergesTo freq), ?_⟩, fun s hs ht => ?_⟩
  · rintro rfl
    exact buildRoot_mergesTo freq
  · rw [exec_build_ready hs ht, initialQueue_length]

/-! ### At most one observed symbol -/

/-- No byte leaf without a count (R122). -/
theorem byteLeaves_of_zeros {cs : List Word} (h : ∀ c ∈ cs, c = 0) (s seq : Nat) : byteLeaves s seq cs = [] := by
  rw [← List.length_eq_zero_iff, byteLeaves_length, List.length_eq_zero_iff, List.filter_eq_nil_iff]
  intro c hc
  simp [h c hc]

/-- One byte leaf where entry `k` alone is not 0. -/
theorem byteLeaves_of_only {cs : List Word} : ∀ {k : Nat} {c : Word} (s seq : Nat), cs[k]? = some c → c ≠ 0 →
    (∀ j d, j ≠ k → cs[j]? = some d → d = 0) →
    byteLeaves s seq cs = [{ freq := c.toNat, seq := seq, tree := .leaf (BitVec.ofNat 9 (s + k)) c.toNat }] := by
  induction cs with
  | nil => intro k c s seq hk; cases hk
  | cons d cs ih =>
    intro k c s seq hk hc hothers
    cases k with
    | zero =>
      obtain rfl : d = c := Option.some.inj hk
      have hrest : ∀ e ∈ cs, e = 0 := by
        intro e he
        obtain ⟨j, hj⟩ := List.mem_iff_getElem?.mp he
        exact hothers (j + 1) e (Nat.succ_ne_zero j) hj
      rw [byteLeaves_pos hc, byteLeaves_of_zeros hrest, Nat.add_zero]
    | succ k =>
      have hd : d = 0 := hothers 0 d (Nat.succ_ne_zero k).symm rfl
      rw [byteLeaves_zero hd, ih (s + 1) seq hk hc fun j e hj => hothers (j + 1) e (by omega), Nat.add_right_comm,
        Nat.add_assoc]

/-- The queue entry of the one observed symbol (R122). -/
theorem byteLeaves_of_single {freq : Table Word 256} {i : Fin 256} (hothers : ∀ j, j ≠ i → freq.get j = 0)
    (hi : freq.get i ≠ 0) :
    byteLeaves 0 0 freq.cells =
      [{ freq := (freq.get i).toNat, seq := 0, tree := .leaf (BitVec.ofNat 9 i.val) (freq.get i).toNat }] := by
  have hget : freq.cells[i.val]? = some (freq.get i) := List.getElem?_eq_getElem _
  rw [byteLeaves_of_only 0 0 hget hi, Nat.zero_add]
  intro j d hj hd
  obtain ⟨hlt, rfl⟩ := List.getElem?_eq_some_iff.mp hd
  exact hothers ⟨j, freq.len ▸ hlt⟩ fun h => hj (congrArg Fin.val h)

/-- Of two entries, one that comes before the other is the left child (R124, R125). -/
theorem mergeAll_pair_before {e x : Entry} (h : x.before e = true) (fuel seq : Nat) :
    mergeAll (fuel + 2) seq e [x] = x.merge e seq := by
  have hmin : extractMin e [x] = (x, [e]) := by simp [extractMin, h]
  rw [mergeAll_cons (y := e) (ys := []) (by rw [hmin]), hmin]
  exact mergeAll_nil fuel _ _

theorem mergeAll_pair_not_before {e x : Entry} (h : ¬ x.before e = true) (fuel seq : Nat) :
    mergeAll (fuel + 2) seq e [x] = e.merge x seq := by
  have hmin : extractMin e [x] = (e, [x]) := by simp [extractMin, h]
  rw [mergeAll_cons (y := x) (ys := []) (by rw [hmin]), hmin]
  exact mergeAll_nil fuel _ _

/-- BUILD by its byte leaves: the loop joins EOS to them (R121 to R126). -/
theorem exec_build_of_byteLeaves {s : State} {q : List Entry} (hs : s.session = .ready) (ht : s.tree = none)
    (hq : byteLeaves 0 0 s.freq.cells = q) :
    exec .build s = .next { s with
      tree := some (mergeAll (q.length + 1) (q.length + 1) (eosEntry q.length) q).tree
      nleaf := BitVec.ofNat 9 (q.length + 1) } := by
  rw [exec_build_ready hs ht, buildRoot_eq, buildLeafCount, hq]

/-- Settles O24: a queue of EOS alone is the root; beside one symbol EOS is right when their frequencies tie, for the
symbol went in first, and left otherwise. -/
theorem buildOfAtMostOneSymbol : Obligations.BuildOfAtMostOneSymbol := by
  intro s hs ht
  refine ⟨fun hzero => ?_, fun i hothers hone => ?_, fun i hothers htwo => ?_⟩
  · have hcells : ∀ c ∈ s.freq.cells, c = 0 := by
      intro c hc
      obtain ⟨i, rfl⟩ := s.freq.exists_get_of_mem hc
      exact hzero i
    exact exec_build_of_byteLeaves hs ht (byteLeaves_of_zeros hcells 0 0)
  · have hq := byteLeaves_of_single hothers (by rw [hone]; decide)
    rw [hone] at hq
    rw [exec_build_of_byteLeaves hs ht hq]
    simp only [List.length_singleton]
    rw [mergeAll_pair_before (by simp [Entry.before, eosEntry, Config.eosFreq])]
    rfl
  · have hne : s.freq.get i ≠ 0 := by
      intro h
      rw [h] at htwo
      exact absurd htwo (by decide)
    rw [exec_build_of_byteLeaves hs ht (byteLeaves_of_single hothers hne)]
    simp only [List.length_singleton]
    rw [mergeAll_pair_not_before (by simp [Entry.before, eosEntry, Config.eosFreq]; omega)]
    rfl

end Sys2Proof.Machine
end

section
/-! PROOF. What BUILD, DESER, LOOKUP and CODEGEN leave unchanged (R121, R136, R162, R166). -/

namespace Sys2Proof.Machine

/-- What a step of command `i` from `s` to `t` leaves unchanged, for the four commands on the tree and the codes: the
obligation's conclusion. -/
def TreeCodeFrame (i : Instr) (s t : State) : Prop :=
  t.decDone = s.decDone ∧ t.out.bits = s.out.bits ∧
    (i = .build ∨ i = .deser → t.code = s.code ∧ s.SameLookup t) ∧
    (i = .codegen → s.SameTree t ∧ s.SameLookup t) ∧
    (∀ sym, i = .lookup sym → s.SameTree t ∧ t.code = s.code) ∧
    (t.session = s.session → t.out = s.out ∧ (i ≠ .deser → t.inp = s.inp))

theorem State.sameTree_self (s : State) : s.SameTree s := ⟨rfl, rfl⟩

theorem State.sameLookup_self (s : State) : s.SameLookup s := ⟨rfl, rfl, rfl⟩

theorem TreeCodeFrame.of_ignored {i : Instr} {s t : State} (h : s.IgnoredTo t) : TreeCodeFrame i s t := by
  obtain ⟨-, rfl⟩ := h
  exact ⟨rfl, rfl, fun _ => ⟨rfl, t.sameLookup_self⟩, fun _ => ⟨t.sameTree_self, t.sameLookup_self⟩,
    fun _ _ => ⟨t.sameTree_self, rfl⟩, fun _ => ⟨rfl, fun _ => rfl⟩⟩

/-- A fault leaves READY, and however much of IN was read by then, it touches neither tree nor codes (R236, R237). -/
theorem TreeCodeFrame.of_fault {i : Instr} {f : HcFault} {info : Word} {s t : State} {r : InStream}
    (h : State.FaultedTo f info { s with inp := r } t) : TreeCodeFrame i s t := by
  obtain ⟨hs, -, -, rfl⟩ := h
  have hleft : Session.fault ≠ s.session := fun he => nomatch he.trans hs
  exact ⟨rfl, rfl, fun _ => ⟨rfl, s.sameLookup_self⟩, fun _ => ⟨s.sameTree_self, s.sameLookup_self⟩,
    fun _ _ => ⟨s.sameTree_self, rfl⟩, fun he => absurd he hleft⟩

theorem execBuild_frame {s t : State} (h : execBuild s = .next t) : TreeCodeFrame .build s t := by
  rcases execBuild_next h with h | ⟨-, h⟩ | ⟨-, -, rfl⟩
  · exact .of_ignored h
  · exact .of_fault h
  · exact ⟨rfl, rfl, fun _ => ⟨rfl, s.sameLookup_self⟩, nofun, nofun, fun _ => ⟨rfl, fun _ => rfl⟩⟩

theorem execDeser_frame {s t : State} (h : execDeser s = .next t) : TreeCodeFrame .deser s t := by
  rcases execDeser_next h with h | ⟨-, h⟩ | ⟨-, f, info, r, -, h⟩ | ⟨-, -, -, u, r, -, -, -, rfl⟩
  · exact .of_ignored h
  · exact .of_fault h
  · exact .of_fault h
  · exact ⟨rfl, rfl, fun _ => ⟨rfl, s.sameLookup_self⟩, nofun, nofun, fun _ => ⟨rfl, fun hd => absurd rfl hd⟩⟩

theorem execCodegen_frame {s t : State} (h : execCodegen s = .next t) : TreeCodeFrame .codegen s t := by
  rcases execCodegen_next h with h | ⟨-, h⟩ | ⟨-, u, -, rfl⟩
  · exact .of_ignored h
  · exact .of_fault h
  · exact ⟨rfl, rfl, nofun, fun _ => ⟨s.sameTree_self, s.sameLookup_self⟩, nofun, fun _ => ⟨rfl, fun _ => rfl⟩⟩

/-- LOOKUP writes its own result registers only, found or not (R162). -/
theorem TreeCodeFrame.of_lookupResult (sym : Sym) (s : State) (found : Bool) (len : BitVec 9) (bits : Table Word 8) :
    TreeCodeFrame (.lookup sym) s { s with lkFound := found, lklen := len, lkbits := bits } :=
  ⟨rfl, rfl, nofun, nofun, fun _ _ => ⟨s.sameTree_self, rfl⟩, fun _ => ⟨rfl, fun _ => rfl⟩⟩

theorem execLookup_frame {sym : Sym} {s t : State} (h : execLookup sym s = .next t) :
    TreeCodeFrame (.lookup sym) s t := by
  rcases execLookup_next h with h | ⟨-, h⟩ | ⟨-, u, -, ⟨-, rfl⟩ | ⟨p, -, rfl⟩⟩
  · exact .of_ignored h
  · exact .of_fault h
  · exact .of_lookupResult ..
  · exact .of_lookupResult ..

/-- Settles O55: the frame of each of the four commands. -/
theorem frameOfTreeAndCodeCommands : Obligations.FrameOfTreeAndCodeCommands := by
  rintro i s t (rfl | rfl | rfl | ⟨sym, rfl⟩) h
  · exact execBuild_frame h
  · exact execDeser_frame h
  · exact execCodegen_frame h
  · exact execLookup_frame h

end Sys2Proof.Machine
end

section
/-! PROOF. DESER reads back a legal tree, accepts nothing else, and takes the fault of the first defect it meets (R136 to
R146). -/

namespace Sys2Proof.Machine

/-! ### DESER by the result of the descent -/

variable {s : State} {rest : Bits}

theorem exec_deser_stored {t : HuffTree} {d : ParseState} (hs : s.session = .ready) (hi : s.inp.opened = true)
    (ht : s.tree = none) (hp : parseTree s.inp = .ok (t, d)) (he : Config.eos ∈ d.seen) :
    exec .deser s = .next { s with inp := d.inp, tree := some t, nleaf := BitVec.ofNat 9 d.nl } := by
  rw [exec, execDeser, whenReady_ready hs, needNoTree_of_none ht, usingIn_opened hi, hp]
  exact if_pos he

theorem raise_entered (hi : s.inp.opened = true) (ho : s.out.opened = true) (f : HcFault) (info : Word) :
    ∃ u, raise f info s = .next u ∧ FaultEntered f info s u :=
  ⟨_, raise_opened hi ho f info, s.faulted_entered f info⟩

theorem exec_deser_noEos {t : HuffTree} {d : ParseState} (hl : s.Live) (ht : s.tree = none)
    (hp : parseTree s.inp = .ok (t, d)) (hi : d.inp = { s.inp with rem := rest }) (he : Config.eos ∉ d.seen) :
    ∃ u, exec .deser s = .next u ∧ FaultEntered .treeNoEos 0 { s with inp := { s.inp with rem := rest } } u := by
  obtain ⟨hs, hin, hout⟩ := hl
  rw [exec, execDeser, whenReady_ready hs, needNoTree_of_none ht, usingIn_opened hin, hp]
  simp only [if_neg he, hi]
  exact raise_entered (s := { s with inp := { s.inp with rem := rest } }) hin hout _ _

theorem exec_deser_parseFault {f : HcFault} {info : Word} {d : ParseState} (hl : s.Live) (ht : s.tree = none)
    (hp : parseTree s.inp = .error ⟨f, info, d⟩) (hi : d.inp = { s.inp with rem := rest }) :
    ∃ u, exec .deser s = .next u ∧ FaultEntered f info { s with inp := { s.inp with rem := rest } } u := by
  obtain ⟨hs, hin, hout⟩ := hl
  rw [exec, execDeser, whenReady_ready hs, needNoTree_of_none ht, usingIn_opened hin, hp]
  simp only [hi]
  exact raise_entered (s := { s with inp := { s.inp with rem := rest } }) hin hout _ _

/-! ### Complete trees -/

/-- The whole of a serialized tree is read, and nothing after it (R144, R146). -/
theorem parseTree_ser {inp : InStream} {t : HuffTree} (hr : inp.rem = t.ser ++ rest) (hn : t.nint ≤ 256)
    (hrange : ∀ x ∈ t.leaves, x.toNat ≤ 256) (hd : t.leaves.Nodup) :
    parseTree inp = .ok (t.shape, ⟨{ inp with rem := rest }, t.nint, t.nleaf, t.leaves.reverse⟩) := by
  have hfuel : t.ser.length ≤ inp.rem.length + 1 := by rw [hr, List.length_append]; omega
  have h := parseNode_ser (o := inp.opened) (dr := inp.dropped) t (inp.rem.length + 1) rest 0 0 [] hfuel
    (by omega) hrange hd (by simp)
  rw [← hr] at h
  simpa [parseTree] using h

/-- Settles O25: a legal tree is read back whole and has an EOS leaf. -/
theorem deserReadsBackASerializedTree : Obligations.DeserReadsBackASerializedTree := by
  intro s t rest hs hi ht hv hr
  have ⟨hrange, hd, he⟩ := hv
  exact exec_deser_stored hs hi ht (parseTree_ser hr hv.nint_le hrange hd) (List.mem_reverse.mpr he)

/-- Settles O26: of the ways DESER can go, only the one that stores a tree stays in READY. -/
theorem deserConsumesASerializedTree : Obligations.DeserConsumesASerializedTree := by
  intro s u hs ht h hu
  rcases execDeser_next h with ⟨hn, -⟩ | ⟨hn, -⟩ | ⟨-, f, info, r, -, -, -, -, rfl⟩ |
    ⟨-, -, -, t, r, hv, hshape, hin, rfl⟩
  · exact absurd hs hn
  · exact absurd ht hn
  · cases hu
  · refine ⟨t, hv, hshape, ?_, ?_⟩ <;> rw [hin]

/-- Distinct byte symbols leave room for one EOS leaf beside them, so they need fewer than 256 Internal nodes (R8). -/
theorem HuffTree.nint_lt_of_byteLeaves {t : HuffTree} (hd : t.leaves.Nodup) (hrange : ∀ x ∈ t.leaves, x.toNat ≤ 256)
    (he : (256 : Sym) ∉ t.leaves) : t.nint < 256 := by
  have hv : (HuffTree.internal t (.leaf 256 0)).Valid := by
    refine ⟨?_, ?_, List.mem_append_right _ (List.mem_singleton_self _)⟩
    · intro x hx
      rcases List.mem_append.mp hx with hx | hx
      · exact hrange x hx
      · rw [List.mem_singleton.mp hx]; decide
    · exact List.nodup_append'.mpr ⟨hd, List.nodup_singleton _, List.disjoint_singleton.mpr he⟩
  have hle := hv.nint_le
  simp only [nint] at hle
  omega

/-- Settles O28: the descent succeeds, and EOS is not among the symbols seen. -/
theorem deserFaultsWithoutEos : Obligations.DeserFaultsWithoutEos := by
  intro s t rest hl ht hr hd hrange he
  have hn := HuffTree.nint_lt_of_byteLeaves hd hrange he
  exact exec_deser_noEos hl ht (parseTree_ser hr hn.le hrange hd) rfl (mt List.mem_reverse.mp he)

/-! ### Faults inside the grammar -/

/-- A fault met in reading a node right after sound records is the one DESER takes (R136, R237). -/
theorem exec_deser_stops {l : List TreeRecord} {z : Bits} {f : HcFault} {info : Word} (hl : s.Live)
    (ht : s.tree = none) (h : ReadSoFar l) (hr : s.inp.rem = recordBits l ++ z)
    (hz : ∀ fuel nl seen, (∀ x, x ∈ seen ↔ x ∈ recordSyms l) → ∃ d,
      parseNode (fuel + 1) ⟨{ s.inp with rem := z }, recordInternals l, nl, seen⟩ = .error ⟨f, info, d⟩ ∧
        d.inp = { s.inp with rem := rest }) :
    ∃ u, exec .deser s = .next u ∧ FaultEntered f info { s with inp := { s.inp with rem := rest } } u := by
  obtain ⟨d, hp, hi⟩ := parseTree_stops h hr hz
  exact exec_deser_parseFault hl ht hp hi

variable {o : Bool} {dr : Bits}

theorem parseNode_symOutOfRange {v : Sym} (hv : 256 < v.toNat) (fuel : Nat) (r : Bits) (ni nl : Nat) (seen : List Sym) :
    parseNode (fuel + 1) ⟨⟨false :: (bitsN v.toNat 9 ++ r), o, dr⟩, ni, nl, seen⟩ =
      .error ⟨.treeSym, v.setWidth 32, ⟨⟨r, o, dr⟩, ni, nl, seen⟩⟩ := by
  rw [parseNode_leafBits, parseLeaf_bits, if_pos hv]

theorem parseNode_symRepeated {v : Sym} {seen : List Sym} (hv : v.toNat ≤ 256) (hm : v ∈ seen) (fuel : Nat) (r : Bits)
    (ni nl : Nat) :
    parseNode (fuel + 1) ⟨⟨false :: (bitsN v.toNat 9 ++ r), o, dr⟩, ni, nl, seen⟩ =
      .error ⟨.treeDup, v.setWidth 32, ⟨⟨r, o, dr⟩, ni, nl, seen⟩⟩ := by
  rw [parseNode_leafBits, parseLeaf_bits, if_neg (Nat.not_lt.mpr hv), if_pos hm]

theorem parseNode_overflow (fuel : Nat) (r : Bits) (nl : Nat) (seen : List Sym) :
    parseNode (fuel + 1) ⟨⟨true :: r, o, dr⟩, 256, nl, seen⟩ = .error ⟨.treeOvf, 0, ⟨⟨r, o, dr⟩, 256, nl, seen⟩⟩ := rfl

/-- Settles O27: the leaf record is read whole, and fails the check of its range or the one against the symbols seen. -/
theorem deserFaultsOnABadLeafRecord : Obligations.DeserFaultsOnABadLeafRecord := by
  refine fun s l x rest hl ht h hr => ⟨fun hx => ?_, fun hx => ?_⟩
  · exact exec_deser_stops hl ht h hr fun fuel nl seen _ => ⟨_, parseNode_symOutOfRange hx .., rfl⟩
  · exact exec_deser_stops hl ht h hr fun fuel nl seen hseen =>
      ⟨_, parseNode_symRepeated (h.inRange x hx) ((hseen x).mpr hx) .., rfl⟩

/-- Settles O29: the count of markers stands at its limit when the marker is read. -/
theorem deserFaultsOnThe257thMarker : Obligations.DeserFaultsOnThe257thMarker := by
  intro s l rest hl ht h hmarkers hr
  refine exec_deser_stops hl ht h hr fun fuel nl seen _ => ?_
  rw [hmarkers, parseNode_overflow]
  exact ⟨_, rfl, rfl⟩

/-- Settles O30: the stream ends at the marker, or inside the nine bits after a marker 0. -/
theorem deserFaultsWhereTheStreamEnds : Obligations.DeserFaultsWhereTheStreamEnds := by
  rintro s l q hl ht h (rfl | ⟨z, rfl, hz⟩) hr
  · exact exec_deser_stops hl ht h hr fun _ _ _ _ => ⟨_, rfl, rfl⟩
  · exact exec_deser_stops hl ht h hr fun _ _ _ _ => ⟨_, parseLeaf_short hz .., rfl⟩

end Sys2Proof.Machine
end

section
/-! PROOF. What SER does, and what the commands that only use the streams leave unchanged (R151, R176, R192, R206, R208,
R216). -/

namespace Sys2Proof.Machine

/-- The sequencing fault of the commands that stand behind `needTree` (R234). -/
theorem needTree_entered {s : State} (hl : s.Live) (ht : s.tree = none) (w : Word)
    (k : HuffTree → Host.Outcome State Fault Refusal) :
    ∃ u, whenReady s (needTree w s k) = .next u ∧ FaultEntered .seq w s u := by
  obtain ⟨hs, hi, ho⟩ := hl
  rw [whenReady_ready hs, needTree_of_none ht]
  exact raise_entered hi ho .seq w

/-- Settles O31: SER is ignored outside READY, faults without a tree, and appends the serialization of the tree. -/
theorem serAppendsTheSerialization : Obligations.SerAppendsTheSerialization := by
  intro s
  refine ⟨fun hs => ?ignored, fun hl ht => ?noTree, fun _ hs ho ht => ?appended⟩
  case ignored => exact whenReady_ended hs _
  case noTree => exact needTree_entered hl ht (encode .ser) _
  case appended => exact exec_ser_ready hs ho ht

/-- What a step of command `i` from `s` to `t` leaves unchanged, for the commands that only use the streams: the
obligation's conclusion. -/
def StreamFrame (i : Instr) (s t : State) : Prop :=
  s.SameTree t ∧ t.code = s.code ∧ s.SameLookup t ∧ (i ≠ .decode → t.decDone = s.decDone) ∧
    (t.session = s.session → (i = .ser ∨ i = .wrhdr → t.inp = s.inp) ∧ (i = .rdhdr → t.out = s.out))

section

variable {i : Instr} {s t : State} {r : InStream} {u : OutStream} {d : Bool}

theorem StreamFrame.of_ignored (h : s.IgnoredTo t) : StreamFrame i s t := by
  obtain ⟨-, rfl⟩ := h
  exact ⟨t.sameTree_self, rfl, t.sameLookup_self, fun _ => rfl, fun _ => ⟨fun _ => rfl, fun _ => rfl⟩⟩

/-- A command that succeeds writes the streams, and DECODE also DEC_DONE (R192). -/
theorem StreamFrame.of_streamed (hd : i ≠ .decode → d = s.decDone) (hr : i = .ser ∨ i = .wrhdr → r = s.inp)
    (hu : i = .rdhdr → u = s.out) : StreamFrame i s { s with inp := r, out := u, decDone := d } :=
  ⟨s.sameTree_self, rfl, s.sameLookup_self, hd, fun _ => ⟨hr, hu⟩⟩

/-- A fault leaves READY, and whatever the command did to the streams by then, it touches neither tree nor codes (R236,
R237). -/
theorem StreamFrame.of_fault {f : HcFault} {info : Word} (hd : i ≠ .decode → d = s.decDone)
    (h : State.FaultedTo f info { s with inp := r, out := u, decDone := d } t) : StreamFrame i s t := by
  obtain ⟨hs, -, -, rfl⟩ := h
  have hleft : Session.fault ≠ s.session := fun he => nomatch he.trans hs
  exact ⟨s.sameTree_self, rfl, s.sameLookup_self, hd, fun he => absurd he hleft⟩

/-- A close leaves READY as well (R216). -/
theorem StreamFrame.of_close (hs : s.session = .ready) : StreamFrame i s { s.released with session := .closed } :=
  have hleft : Session.closed ≠ s.session := fun he => nomatch he.trans hs
  ⟨s.sameTree_self, rfl, s.sameLookup_self, fun _ => rfl, fun he => absurd he hleft⟩

theorem execSer_frame (h : execSer s = .next t) : StreamFrame .ser s t := by
  rcases execSer_next h with h | ⟨-, h⟩ | ⟨-, -, _, -, rfl⟩
  · exact .of_ignored h
  · exact .of_fault (fun _ => rfl) h
  · exact .of_streamed (fun _ => rfl) (fun _ => rfl) nofun

theorem execEncode_frame (h : execEncode s = .next t) : StreamFrame .encode s t := by
  rcases execEncode_next h with h | ⟨-, h⟩ | ⟨_, _, _, -, -, h⟩ | ⟨-, _, _, _, -, -, -, rfl⟩
  · exact .of_ignored h
  · exact .of_fault (fun _ => rfl) h
  · exact .of_fault (fun _ => rfl) h
  · exact .of_streamed (fun _ => rfl) nofun nofun

theorem execDecode_frame (h : execDecode s = .next t) : StreamFrame .decode s t := by
  have hdone {d : Bool} (hi : Instr.decode ≠ .decode) : d = s.decDone := absurd rfl hi
  rcases execDecode_next h with h | ⟨-, h⟩ | ⟨-, _, _, -, -, h⟩ | ⟨-, -, _, _, -, -, rfl⟩
  · exact .of_ignored h
  · exact .of_fault hdone h
  · exact .of_fault hdone h
  · exact .of_streamed hdone nofun nofun

theorem execWrhdr_frame (h : execWrhdr s = .next t) : StreamFrame .wrhdr s t := by
  rcases execWrhdr_next h with h | ⟨-, -, rfl⟩
  · exact .of_ignored h
  · exact .of_streamed (fun _ => rfl) (fun _ => rfl) nofun

theorem execRdhdr_frame (h : execRdhdr s = .next t) : StreamFrame .rdhdr s t := by
  rcases execRdhdr_next h with h | ⟨_, _, -, h⟩ | ⟨-, _, -, rfl⟩
  · exact .of_ignored h
  · exact .of_fault (fun _ => rfl) h
  · exact .of_streamed (fun _ => rfl) nofun (fun _ => rfl)

theorem execClose_frame (h : execClose s = .next t) : StreamFrame .close s t := by
  rcases execClose_next h with h | ⟨hs, -, -, rfl⟩
  · exact .of_ignored h
  · exact .of_close hs

end

/-- Settles O56: the frame of each of the six commands. -/
theorem frameOfStreamCommands : Obligations.FrameOfStreamCommands := by
  rintro i s t (rfl | rfl | rfl | rfl | rfl | rfl) h
  · exact execSer_frame h
  · exact execEncode_frame h
  · exact execDecode_frame h
  · exact execWrhdr_frame h
  · exact execRdhdr_frame h
  · exact execClose_frame h

end Sys2Proof.Machine
end

section
/-! PROOF. LOOKUP and CODEGEN write the paths of the tree (R160 to R167), down to the tree that is a single leaf (R163,
R195). -/

namespace Sys2Proof.Machine

/-! ### Paths -/

/-- Settles O36: walking a path ends at its symbol's leaf, and no other way leads to a leaf with that symbol. -/
theorem pathLeadsToTheLeaf : Obligations.PathLeadsToTheLeaf := by
  rintro t x ⟨-, hdistinct, -⟩
  refine ⟨fun p => ⟨t.walk_path, ?_⟩, t.path_eq_none_iff x⟩
  rintro ⟨f, hwalk⟩
  exact t.path_of_walk hdistinct hwalk

/-! ### The code table -/

/-- The symbol numbers of CODE that have a leaf are the numbers of the leaf symbols of a legal tree (R31, R34). -/
theorem HuffTree.Valid.leafNumbers_perm {t : HuffTree} (h : t.Valid) :
    ((List.range 257).filter fun k => (t.path (BitVec.ofNat 9 k)).isSome).Perm (t.leaves.map BitVec.toNat) := by
  obtain ⟨hrange, hdistinct, -⟩ := h
  have hnodup : (t.leaves.map BitVec.toNat).Nodup := hdistinct.map fun _ _ => BitVec.eq_of_toNat_eq
  refine (List.perm_ext_iff_of_nodup (List.nodup_range.filter _) hnodup).mpr fun k => ?_
  rw [List.mem_filter, List.mem_range, t.path_isSome_iff, List.mem_map]
  constructor
  · rintro ⟨hk, hleaf⟩
    exact ⟨_, hleaf, Nat.mod_eq_of_lt (by omega)⟩
  · rintro ⟨x, hleaf, rfl⟩
    have hx := hrange x hleaf
    exact ⟨by omega, by rwa [BitVec.ofNat_toNat, BitVec.setWidth_eq]⟩

/-- Settles O39: the entries with a code belong to the leaf symbols, one each, and EOS is one of these. -/
theorem codeTableCountsTheLeaves : Obligations.CodeTableCountsTheLeaves := by
  refine fun t h => ⟨?count, ?eos⟩
  case count =>
    rw [codeTable, Table.tabulate_cells fun k => t.path (BitVec.ofNat 9 k), List.filter_map, List.length_map]
    calc
      _ = (t.leaves.map BitVec.toNat).length := h.leafNumbers_perm.length_eq
      _ = t.nleaf := by rw [List.length_map, t.leaves_length]
  case eos =>
    obtain ⟨-, -, heos⟩ := h
    rw [codeOfEos_codeTable]
    exact (t.path_isSome_iff 256).mpr heos

/-- Settles O38: CODEGEN stores `codeTable`, whose entries are the paths. -/
theorem codegenFillsTheTable : Obligations.CodegenFillsTheTable := by
  intro s
  refine ⟨fun hs => ?ignored, fun hl ht => ?noTree, fun t hs ht => ?filled⟩
  case ignored => exact whenReady_ended hs _
  case noTree => exact needTree_entered hl ht (encode .codegen) _
  case filled => exact ⟨codeTable t, exec_codegen_ready hs ht, fun i => Table.get_tabulate _ i⟩

/-! ### LOOKUP -/

/-- The command word of LOOKUP as a number: OP is 4 and SYM begins at bit 4 (R93, R94). -/
theorem encode_lookup (sym : Sym) : encode (.lookup sym) = BitVec.ofNat 32 (4 + 16 * sym.toNat) := by
  obtain ⟨hop, hzero⟩ := Laws.OpField.lookup sym
  have hlow : (encode (.lookup sym)).toNat % 16 = 4 := congrArg BitVec.toNat hop
  have hmiddle : (encode (.lookup sym)).toNat / 16 % 512 = sym.toNat := by
    rw [← symField_toNat, symField_encode_lookup]
  have hhigh : (encode (.lookup sym)).toNat / 2 ^ 13 = 0 := by
    rw [← zeroFieldS_toNat, hzero]
    rfl
  apply BitVec.eq_of_toNat_eq
  rw [BitVec.toNat_ofNat]
  omega

section

variable {s : State} {t : HuffTree} {sym : Sym}

theorem exec_lookup_absent (hs : s.session = .ready) (ht : s.tree = some t) (hp : t.path sym = none) :
    exec (.lookup sym) s = .next { s with lkFound := false, lklen := 0, lkbits := Table.filled 8 0 } := by
  rw [exec, execLookup, whenReady_ready hs, needTree_of_some ht, hp]

theorem exec_lookup_found {p : Bits} (hs : s.session = .ready) (ht : s.tree = some t) (hp : t.path sym = some p) :
    exec (.lookup sym) s = .next { s with
      lkFound := true, lklen := BitVec.ofNat 9 p.length, lkbits := packPath p } := by
  rw [exec, execLookup, whenReady_ready hs, needTree_of_some ht, hp]

end

/-- Settles O34: LOOKUP is ignored outside READY, faults without a tree, and reports whether there is a path. -/
theorem lookupReportsThePath : Obligations.LookupReportsThePath := by
  intro s sym
  refine ⟨fun hs => ?ignored, fun hl ht => ?noTree, fun _ => exec_lookup_absent, fun _ _ => exec_lookup_found⟩
  case ignored => exact whenReady_ended hs _
  case noTree =>
    rw [← encode_lookup]
    exact needTree_entered hl ht (encode (.lookup sym)) _

/-! ### The single-leaf tree -/

/-- The empty path leaves every register of LKBITS 0 (R35). -/
theorem packPath_nil : packPath [] = Table.filled 8 0 := by decide

/-- DECODE has nothing to read where the root is a leaf (R195). -/
theorem exec_decode_leaf {s : State} {x : Sym} {f : Nat} (hs : s.session = .ready) (ht : s.tree = some (.leaf x f)) :
    exec .decode s = .next { s with decDone := true } := by
  rw [exec, execDecode, whenReady_ready hs, needTree_of_some ht]

/-- Settles O40: the leaf's own symbol has the empty path, and no other symbol has one. -/
theorem singleLeafTreeHasTheEmptyCode : Obligations.SingleLeafTreeHasTheEmptyCode := by
  intro s f hs ht
  refine ⟨?eos, fun x hx => ?other, exec_decode_leaf hs ht⟩
  case eos =>
    rw [exec_lookup_found hs ht (if_pos rfl), packPath_nil]
    rfl
  case other => exact exec_lookup_absent hs ht (if_neg hx.symm)

end Sys2Proof.Machine
end

section
/-! PROOF. ENCODE writes the code of every byte and the terminator (R180 to R182), and takes a fault at the first byte
without a code (R179). -/

namespace Sys2Proof.Machine

/-- Settles O41: the loop writes the codes of the bytes and finishes at the odd bits. -/
theorem encodeWritesTheCodes : Obligations.EncodeWritesTheCodes := by
  intro s c bytes odd eosCode hl hc hin hodd hbytes heos
  exact exec_encode_live hl hc hin hodd hbytes heos

/-- Settles O42: the loop writes the codes of the bytes before, reads the byte without a code, and the fault is entered
from the streams as the loop left them. -/
theorem encodeFaultsAtAByteWithoutACode : Obligations.EncodeFaultsAtAByteWithoutACode := by
  rintro s c bytes v rest ⟨hs, hi, ho⟩ hc hin hbytes hv
  have hfuel : bytes.length < s.inp.rem.length + 1 := by simp [hin]; omega
  have hinp : s.inp = ⟨fileBits bytes ++ (bitsN v.toNat 8 ++ rest), s.inp.opened, s.inp.dropped⟩ := by rw [← hin]
  have hloop := encodeLoop_notFound (o := s.inp.opened) (dr := s.inp.dropped) (oo := s.out.opened) (fl := s.out.file)
    c bytes v rest s.out.bits hfuel hbytes hv
  rw [← hinp] at hloop
  rw [exec, execEncode, whenReady_ready hs, needCode_of_some hc, usingIn_opened hi, usingOut_opened ho, hloop]
  exact raise_entered (s := { s with
    inp := { s.inp with rem := rest }
    out := { s.out with bits := s.out.bits ++ tableCodesOf c bytes } }) hi ho _ _

end Sys2Proof.Machine
end

section
/-! PROOF. DECODE (R191 to R198): what one pass of its walk can do, the bytes it writes when IN holds their codes, and
the fault it takes when IN ends before the code of EOS. -/

namespace Sys2Proof.Machine

/-! ### One pass of the walk -/

/-- The four ways one pass from `c` can go (R193, R194): IN is at its end, or one bit leads to an Internal node, to the
leaf of EOS, or to another leaf. -/
inductive DecodePass (root : Children) (c : DecodeConfig) : DecodeStep → Prop where
  | inputEnds : c.inp.rem = [] → DecodePass root c (.ended (.truncated c.inp c.out))
  | moves {b : Bool} {r : InStream} {left right : HuffTree} :
      c.inp = { r with rem := b :: r.rem } → (if b then c.cur.right else c.cur.left) = .internal left right →
      DecodePass root c (.more ⟨⟨left, right⟩, r, c.out⟩)
  | finishes {b : Bool} {r : InStream} {f : Nat} :
      c.inp = { r with rem := b :: r.rem } → (if b then c.cur.right else c.cur.left) = .leaf 256 f →
      DecodePass root c (.ended (.finished r c.out))
  | emits {b : Bool} {r : InStream} {x : Sym} {f : Nat} :
      c.inp = { r with rem := b :: r.rem } → (if b then c.cur.right else c.cur.left) = .leaf x f → x ≠ 256 →
      DecodePass root c (.more ⟨root, r, { c.out with bits := c.out.bits ++ bitsN x.toNat 8 }⟩)

theorem decodeStep_pass (root : Children) (c : DecodeConfig) : DecodePass root c (decodeStep root c) := by
  obtain ⟨cur, ⟨q, o, dr⟩, ⟨w, oo, fl⟩⟩ := c
  cases q with
  | nil => exact .inputEnds rfl
  | cons b q =>
    cases hchild : (if b then cur.right else cur.left) with
    | internal l r =>
      rw [decodeStep_internal hchild]
      exact .moves rfl hchild
    | leaf x f =>
      rw [decodeStep_leaf hchild]
      split
      next hx => exact .finishes rfl (hx ▸ hchild)
      next hx => exact .emits rfl hchild hx

/-- A pass that goes on has consumed exactly one bit (R197). -/
theorem decodeStep_more_length {root : Children} {c c' : DecodeConfig} (h : decodeStep root c = .more c') :
    c.inp.rem.length = c'.inp.rem.length + 1 := by
  have hpass := decodeStep_pass root c
  rw [h] at hpass
  cases hpass with
  | moves hin _ => rw [hin, List.length_cons]
  | emits hin _ _ => rw [hin, List.length_cons]

/-- With more passes than bits on IN, the walk ends before the passes do, so their number does not matter (R197). -/
theorem decodeRun_passes (root : Children) : ∀ (n m : Nat) (c : DecodeConfig),
    c.inp.rem.length < n → c.inp.rem.length < m → decodeRun root n c = decodeRun root m c := by
  intro n
  induction n with
  | zero => intro m c hn; omega
  | succ n ih =>
    intro m c hn hm
    obtain ⟨m, rfl⟩ := Nat.exists_eq_add_one_of_ne_zero (Nat.ne_zero_of_lt hm)
    rw [decodeRun, decodeRun]
    cases hstep : decodeStep root c with
    | ended e => rfl
    | more c' =>
      have hlength := decodeStep_more_length hstep
      exact ih m c' (by omega) (by omega)

/-- Settles O45: each clause is read off the ways a pass can go, and the bound on passes off the one bit it consumes. -/
theorem traversalStepConsumesOneBit : Obligations.TraversalStepConsumesOneBit := by
  refine ⟨fun root c c' h => ?more, fun root c r o h => ?finished, fun root c n hn => ?passes⟩
  case more =>
    have hpass := decodeStep_pass root c
    rw [h] at hpass
    cases hpass with
    | moves hin hchild => exact ⟨_, hin, .inl ⟨rfl, hchild⟩⟩
    | emits hin hchild hx => exact ⟨_, hin, .inr ⟨_, _, hchild, hx, rfl, rfl⟩⟩
  case finished =>
    have hpass := decodeStep_pass root c
    rw [h] at hpass
    cases hpass with
    | finishes hin hchild => exact ⟨_, hin, rfl, _, hchild⟩
  case passes => exact decodeRun_passes root n _ c hn (Nat.lt_succ_self _)

/-! ### The tree that is a single leaf -/

/-- A path in a single leaf is empty, and its symbol is the leaf's (R161, R163). -/
theorem HuffTree.path_leaf_eq_some {x y : Sym} {f : Nat} {p : Bits} (h : (HuffTree.leaf x f).path y = some p) :
    x = y ∧ p = [] := by
  obtain ⟨g, hwalk⟩ := (HuffTree.leaf x f).walk_path h
  cases p with
  | nil => cases hwalk; exact ⟨rfl, rfl⟩
  | cons => cases hwalk

/-- No byte is the symbol of EOS (R7). -/
theorem setWidth_ne_eos (b : Byte) : b.setWidth 9 ≠ (256 : Sym) := by
  intro h
  have hnat : b.toNat % 512 = 256 := (BitVec.toNat_setWidth 9 b).symm.trans (congrArg BitVec.toNat h)
  have hlt := b.isLt
  omega

/-- Where EOS is the only leaf, only the empty byte sequence has codes (R195). -/
theorem eq_nil_of_paths_in_eos_leaf {f : Nat} {bytes : List Byte}
    (h : ∀ b ∈ bytes, ((HuffTree.leaf 256 f).path (b.setWidth 9)).isSome = true) : bytes = [] := by
  refine List.eq_nil_iff_forall_not_mem.mpr fun b hb => ?_
  obtain ⟨p, hp⟩ := Option.isSome_iff_exists.mp (h b hb)
  obtain ⟨hsym, -⟩ := HuffTree.path_leaf_eq_some hp
  exact setWidth_ne_eos b hsym.symm

/-! ### The command -/

section

variable {s : State} {l r : HuffTree} {q : InStream} {o : OutStream}

theorem exec_decode_finished (hl : s.Live) (ht : s.tree = some (.internal l r))
    (h : decodeRun ⟨l, r⟩ (s.inp.rem.length + 1) ⟨⟨l, r⟩, s.inp, s.out⟩ = .finished q o) :
    exec .decode s = .next { s with inp := q, out := o, decDone := true } := by
  obtain ⟨hs, hi, ho⟩ := hl
  rw [exec, execDecode, whenReady_ready hs, needTree_of_some ht]
  simp only [usingIn_opened hi, usingOut_opened ho, h]

theorem exec_decode_truncated (hl : s.Live) (ht : s.tree = some (.internal l r))
    (h : decodeRun ⟨l, r⟩ (s.inp.rem.length + 1) ⟨⟨l, r⟩, s.inp, s.out⟩ = .truncated q o) :
    exec .decode s = raise .truncated 0 { s with inp := q, out := o, decDone := false } := by
  obtain ⟨hs, hi, ho⟩ := hl
  rw [exec, execDecode, whenReady_ready hs, needTree_of_some ht]
  simp only [usingIn_opened hi, usingOut_opened ho, h]

end

/-- DECODE on the codes of bytes, the code of EOS and any rest (R195, R198). -/
theorem exec_decode_live {s : State} {t : HuffTree} {bytes : List Byte} {eosCode rest : Bits} (hl : s.Live)
    (ht : s.tree = some t) (hbytes : ∀ b ∈ bytes, (t.path (b.setWidth 9)).isSome = true)
    (heos : t.path 256 = some eosCode) (hin : s.inp.rem = codesOf t bytes ++ (eosCode ++ rest)) :
    exec .decode s = .next { s with
      inp := { s.inp with rem := rest }
      out := { s.out with bits := s.out.bits ++ fileBits bytes }
      decDone := true } := by
  cases t with
  | leaf x f =>
    obtain ⟨rfl, rfl⟩ := HuffTree.path_leaf_eq_some heos
    obtain rfl := eq_nil_of_paths_in_eos_leaf hbytes
    obtain rfl : s.inp.rem = rest := hin
    obtain ⟨hs, -, -⟩ := hl
    rw [exec_decode_leaf hs ht, fileBits_nil, List.append_nil]
  | internal l r =>
    have hwalk := decodeRun_finished (o := s.inp.opened) (dr := s.inp.dropped) (oo := s.out.opened) (fl := s.out.file)
      rest s.out.bits hbytes heos (Nat.lt_succ_self _)
    rw [← hin] at hwalk
    exact exec_decode_finished hl ht hwalk

/-- Settles O43: the walk over the codes, or no walk where the root is the leaf of EOS. -/
theorem decodeWritesTheBytes : Obligations.DecodeWritesTheBytes := by
  intro s t bytes eosCode rest hl ht _ hbytes heos hin
  exact exec_decode_live hl ht hbytes heos hin

/-- Settles O44: the walk is at the root or inside a code when IN ends; a single leaf has no code to cut off. -/
theorem decodeFaultsWhenTheInputEnds : Obligations.DecodeFaultsWhenTheInputEnds := by
  intro s t bytes x q z hl ht _ hbytes hx hz hin
  cases t with
  | leaf y f =>
    obtain ⟨-, hempty⟩ := HuffTree.path_leaf_eq_some hx
    exact absurd (List.append_eq_nil_iff.mp hempty).2 hz
  | internal l r =>
    have hwalk := decodeRun_cutOff (o := s.inp.opened) (dr := s.inp.dropped) (oo := s.out.opened) (fl := s.out.file)
      s.out.bits hbytes hx hz (Nat.lt_succ_self _)
    rw [← hin] at hwalk
    rw [exec_decode_truncated hl ht hwalk]
    obtain ⟨-, hi, ho⟩ := hl
    exact raise_entered (s := { s with
      inp := { s.inp with rem := [] }
      out := { s.out with bits := s.out.bits ++ fileBits bytes }
      decDone := false }) hi ho _ _

end Sys2Proof.Machine
end

section
/-! PROOF. DECODEFILE (R117): what its four commands do in a running session whose IN holds an artefact, and that it
gives back the file that ENCODEFILE was given (R199). -/

namespace Sys2Proof.Machine

/-! ### The run -/

/-- RDHDR takes the 32 bits of MAGIC off IN (R208). -/
theorem exec_rdhdr_magic {s : State} {rest : Bits} (hs : s.session = .ready) (hi : s.inp.opened = true)
    (hin : s.inp.rem = bitsN s.params.magic.toNat 32 ++ rest) :
    exec .rdhdr s = .next { s with inp := { s.inp with rem := rest } } := by
  have hread := readBits_append s.params.magic rest s.inp.opened s.inp.dropped
  rw [← hin] at hread
  rw [exec, execRdhdr, whenReady_ready hs, usingIn_opened hi, hread]
  exact if_pos rfl

/-- The codes of a tree do not depend on the frequencies in its leaves (R161). -/
theorem codesOf_shape (t : HuffTree) (bytes : List Byte) : codesOf t.shape bytes = codesOf t bytes := by
  simp only [codesOf, HuffTree.shape_path]

/-- `s` before the CLOSE of DECODEFILE: the tree `t` is stored, OUT holds `bytes`, and `pad` is left on IN (R117). -/
def State.artefactRead (s : State) (t : HuffTree) (bytes : List Byte) (pad : Bits) : State :=
  { s with
    tree := some t.shape
    nleaf := BitVec.ofNat 9 t.nleaf
    inp := { s.inp with rem := pad }
    out := { s.out with bits := s.out.bits ++ fileBits bytes }
    decDone := true }

/-- The four commands of DECODEFILE, one after the other (R117). -/
theorem runCommands_decodeFile {s : State} {t : HuffTree} {bytes : List Byte} {eosCode pad : Bits} (hl : s.Live)
    (ht : s.tree = none) (hv : t.Valid) (hbytes : ∀ b ∈ bytes, (t.path (b.setWidth 9)).isSome = true)
    (heos : t.path 256 = some eosCode)
    (hin : s.inp.rem = bitsN s.params.magic.toNat 32 ++ (t.ser ++ (codesOf t bytes ++ (eosCode ++ pad)))) :
    runCommands decodeFile s = .next { (s.artefactRead t bytes pad).released with session := .closed } := by
  have ⟨hs, hi, ho⟩ := hl
  refine runCommands_cons (exec_rdhdr_magic hs hi hin) ?_
  refine runCommands_cons (deserReadsBackASerializedTree _ t _ hs hi ht hv rfl) ?_
  refine runCommands_cons (exec_decode_live ⟨hs, hi, ho⟩ rfl (by simpa only [HuffTree.shape_path] using hbytes)
    ((t.shape_path 256).trans heos) (by rw [codesOf_shape])) ?_
  exact runCommands_cons (exec_close_live ⟨hs, hi, ho⟩) rfl

/-! ### The file of a released OUT -/

/-- The bits of the file are those written, and some padding (R72). -/
theorem OutStream.Released.exists_file {o : OutStream} (h : o.Released) :
    ∃ f pad, o.file = some f ∧ fileBits f = o.bits ++ pad := by
  obtain ⟨-, pad, hlength, hfile⟩ := h
  refine ⟨_, pad, hfile, fileBits_packBytes _ ?_⟩
  rw [List.length_append, hlength]
  exact length_add_padLength _

/-- Whole bytes written are the file: there is no padding (R72). -/
theorem OutStream.Released.file_of_bytes {o : OutStream} {bytes : List Byte} (h : o.Released)
    (hbits : o.bits = fileBits bytes) : o.file = some bytes := by
  obtain ⟨-, pad, hlength, hfile⟩ := h
  rw [hbits, fileBits_length, padLength_whole (Nat.mul_mod_right 8 _)] at hlength
  rw [hfile, hbits, List.length_eq_zero_iff.mp hlength, List.append_nil, packBytes_fileBits]

/-- Settles O60: the file of ENCODEFILE is the artefact and some padding, and DECODEFILE leaves the padding on IN. -/
theorem decodeOfEncodedFileIsTheFile : Obligations.DecodeOfEncodedFileIsTheFile := by
  intro s₁ bytes hl₁ ht₁ herr₁ hout₁ hin₁ hcounts
  obtain ⟨u, t, eosCode, hrun, hended, -, hv, heos, hbytes, hreleased, hbits⟩ :=
    encodeRunMakesTheArtefact s₁ bytes hl₁ ht₁ herr₁ hout₁ hin₁ hcounts
  obtain ⟨artefact, pad, hfile, hartefact⟩ := hreleased.exists_file
  refine ⟨u, artefact, hrun, hended, hfile, fun s₂ hl₂ ht₂ herr₂ hout₂ hmagic hin₂ => ?_⟩
  have hin : s₂.inp.rem = bitsN s₂.params.magic.toNat 32 ++ (t.ser ++ (codesOf t bytes ++ (eosCode ++ pad))) := by
    rw [hin₂, hartefact, hbits, hmagic]
    simp only [List.append_assoc]
  refine ⟨_, runCommands_decodeFile hl₂ ht₂ hv hbytes heos hin, ⟨rfl, herr₂⟩, rfl, ?_⟩
  refine (OutStream.close_released _ _).file_of_bytes ?_
  change s₂.out.bits ++ _ = _
  rw [hout₂, List.nil_append]

end Sys2Proof.Machine
end

section
/-! PROOF. WRHDR appends the magic to OUT (R206), and RDHDR takes it off IN or faults with what it read there (R208 to
R210). -/

namespace Sys2Proof.Machine

/-- Settles O46: WRHDR is ignored outside READY and appends the magic in a running session. -/
theorem wrhdrAppendsTheMagic : Obligations.WrhdrAppendsTheMagic := by
  intro s
  exact ⟨fun hs => whenReady_ended hs _, exec_wrhdr_ready⟩

/-- RDHDR on 32 bits that are not MAGIC: E_MAGIC with their value, after they are consumed (R209). -/
theorem exec_rdhdr_mismatch {s : State} {v : Word} {rest : Bits} (hl : s.Live)
    (hin : s.inp.rem = bitsN v.toNat 32 ++ rest) (hv : v ≠ s.params.magic) :
    ∃ u, exec .rdhdr s = .next u ∧ FaultEntered .magicMismatch v { s with inp := { s.inp with rem := rest } } u := by
  obtain ⟨hs, hi, ho⟩ := hl
  have hread := readBits_append v rest s.inp.opened s.inp.dropped
  rw [← hin] at hread
  rw [exec, execRdhdr, whenReady_ready hs, usingIn_opened hi, hread]
  simp only [if_neg hv]
  exact raise_entered (s := { s with inp := { s.inp with rem := rest } }) hi ho _ _

/-- RDHDR on fewer than 32 bits: E_MAGIC with 0, after all of them are consumed (R210). -/
theorem exec_rdhdr_short {s : State} (hl : s.Live) (hlen : s.inp.rem.length < 32) :
    ∃ u, exec .rdhdr s = .next u ∧ FaultEntered .magicMismatch 0 { s with inp := { s.inp with rem := [] } } u := by
  obtain ⟨hs, hi, ho⟩ := hl
  rw [exec, execRdhdr, whenReady_ready hs, usingIn_opened hi, readBits_short hlen s.inp.opened s.inp.dropped]
  exact raise_entered (s := { s with inp := { s.inp with rem := [] } }) hi ho _ _

/-- Settles O47: RDHDR is ignored outside READY; otherwise the 32 bits it reads decide, or that IN has fewer. -/
theorem rdhdrChecksTheHeader : Obligations.RdhdrChecksTheHeader := by
  intro s
  refine ⟨fun hs => ?ignored, fun _ ⟨hs, hi, _⟩ hin => ?accepted, fun _ _ hl hin hv => ?mismatch, fun hl hlen => ?short⟩
  case ignored => exact whenReady_ended hs _
  case accepted => exact exec_rdhdr_magic hs hi hin
  case mismatch => exact exec_rdhdr_mismatch hl hin hv
  case short => exact exec_rdhdr_short hl hlen

end Sys2Proof.Machine
end

section
/-! PROOF. The end of a session and the start of the next: CLOSE (R216), the commands that an ended session ignores
(R240), and RESET (R218, R260, R261). -/

namespace Sys2Proof.Machine

/-- In CLOSED and in FAULT every command but RESET is ignored (R240). -/
theorem exec_ended {i : Instr} {s : State} (hs : s.session ≠ .ready) (hi : i ≠ .reset) : exec i s = .next s := by
  cases i with
  | reset => exact absurd rfl hi
  | build | deser | ser | lookup | codegen | encode | decode | wrhdr | rdhdr | close => exact whenReady_ended hs _

/-- Settles O48: an ended session ignores CLOSE and the others, and a running one has its streams released. -/
theorem closeReleasesBothStreams : Obligations.CloseReleasesBothStreams := by
  intro s
  refine ⟨fun hs _ hi => exec_ended hs hi, fun hl => ⟨_, exec_close_live hl, rfl, rfl, rfl, ?released, rfl⟩⟩
  case released => exact s.out.close_released s.padDraws

/-- Settles O13: the OUT that joins the archive is released first where the session still runs. -/
theorem resetCommandReturnsToTheResetState : Obligations.ResetCommandReturnsToTheResetState := by
  refine ⟨fun s rest hp => step_of_pending hp, fun s hopen => ?_⟩
  by_cases hs : s.session = .ready
  · obtain ⟨hi, ho⟩ := hopen hs
    exact ⟨_, s.released.out, resetCore_ready hs hi ho, rfl, rfl, fun _ => s.out.close_released s.padDraws,
      fun hne => absurd hs hne⟩
  · exact ⟨_, s.out, resetCore_ended hs, rfl, rfl, fun h => absurd h hs, fun _ => rfl⟩

end Sys2Proof.Machine
end

section
/-! PROOF. The host port: what RREG returns and what WREG does, for every register number (R41, R219, R220). -/

namespace Sys2Proof.Machine

/-! ### The register map above STATUS -/

theorem portReg_errInfo : portReg 258 = .errInfo := by decide

theorem portReg_nleaf : portReg 259 = .nleaf := by decide

theorem portReg_lklen : portReg 260 = .lklen := by decide

theorem portReg_lkbits {n : RegNum} {k : Fin 8} (h : n.toNat = 261 + k.val) : portReg n = .lkbits k := by
  have hk : n = BitVec.ofNat 9 (261 + k.val) := by rw [← h, BitVec.ofNat_toNat, BitVec.setWidth_eq]
  subst hk
  revert k; decide

/-- The numbers 269 to 511 are reserved (R41). -/
theorem portReg_reserved {n : RegNum} (h : 269 ≤ n.toNat) : portReg n = .reserved := by
  rw [portReg, dif_neg (by omega), if_neg (by omega), if_neg (by omega), if_neg (by omega), if_neg (by omega),
    if_neg (by omega), dif_neg (by omega)]

/-! ### RREG -/

/-- Settles O8: the value is `readReg`, read off the register map number by number. -/
theorem busReadReturnsTheRegister : Obligations.BusReadReturnsTheRegister := by
  intro s n rest hp
  have number {k : RegNum} (h : n.toNat = k.toNat) : n = k := BitVec.eq_of_toNat_eq h
  refine ⟨readReg n s, step_of_pending hp, fun h => ?freq, fun h => ?cmd, fun h => ?status, fun h => ?errInfo,
    fun h => ?nleaf, fun h => ?lklen, fun k h => ?lkbits, fun h => ?reserved⟩
  case freq => rw [readReg, portReg_freq h]
  case cmd => rw [number (k := 256) h, readReg, portReg_cmd]
  case status => rw [number (k := 257) h, readReg, portReg_status]
  case errInfo => rw [number (k := 258) h, readReg, portReg_errInfo]
  case nleaf =>
    rw [number (k := 259) h, readReg, portReg_nleaf]
    exact BitVec.toNat_setWidth_of_le (by decide)
  case lklen =>
    rw [number (k := 260) h, readReg, portReg_lklen]
    exact BitVec.toNat_setWidth_of_le (by decide)
  case lkbits => rw [readReg, portReg_lkbits h]
  case reserved => rw [readReg, portReg_reserved h]

/-! ### WREG -/

theorem transact_wreg_cmd (w : Word) (s : State) : transact (.wreg 256 w) s = writeCmd w s := by
  rw [transact, busWrite, portReg_cmd]

theorem transact_wreg_freq {n : RegNum} (h : n.toNat < 256) (v : Word) (s : State) :
    transact (.wreg n v) s = writeFreq ⟨n.toNat, h⟩ v s := by
  rw [transact, busWrite, portReg_freq h]

/-- Every register above CMD is read-only or reserved, and a write to it is ignored (R42). -/
theorem transact_wreg_above_cmd {n : RegNum} (h : 256 < n.toNat) (v : Word) (s : State) :
    transact (.wreg n v) s = .next s := by
  rw [transact, busWrite, portReg, dif_neg (by omega), if_neg (by omega)]
  split_ifs <;> rfl

/-- After the session has ended CMD takes only RESET (R240). -/
theorem writeCmd_ended {w : Word} {s : State} (hs : s.session ≠ .ready) (hw : decode w ≠ .ok .reset) :
    writeCmd w s = .next s := by
  unfold writeCmd
  cases hd : decode w with
  | ok i =>
    have hi : i ≠ .reset := by
      rintro rfl
      exact hw hd
    exact exec_ended hs hi
  | error e => exact whenReady_ended hs _

/-- A running session takes E_ILLEGAL_CMD at an illegal word (R233). -/
theorem writeCmd_illegal {w : Word} {s : State} (hs : s.session = .ready) (hw : ∀ i, decode w ≠ .ok i) :
    writeCmd w s = raise .illegalCmd w s := by
  unfold writeCmd
  cases hd : decode w with
  | ok i => exact absurd hd (hw i)
  | error e => exact whenReady_ready hs _

/-- Settles O7: a write to CMD by its word, a write to FREQ by STATE, and every other number ignores it. -/
theorem busWriteFollowsTheRegisterNumber : Obligations.BusWriteFollowsTheRegisterNumber := by
  intro s n v rest hp
  rw [step_of_pending hp]
  refine ⟨?reset, ?ended, ?illegal, ?command, fun h hs => ?count, fun h hs => ?ignored, fun h => ?above⟩
  case reset => rintro rfl hd; exact transact_command hd _
  case ended =>
    rintro rfl hd hs
    rw [transact_wreg_cmd]
    exact writeCmd_ended (s := { s with pending := rest }) hs hd
  case illegal =>
    rintro rfl hs hd
    rw [transact_wreg_cmd]
    exact writeCmd_illegal (s := { s with pending := rest }) hs hd
  case command => rintro i rfl - hd; exact transact_command hd _
  case count =>
    refine ⟨s.freq.set ⟨n.toNat, h⟩ (lowBits s.params.fw v), ?_, ?_, fun j hj => ?_⟩
    · rw [transact_wreg_freq h]
      exact whenReady_ready (s := { s with pending := rest }) hs _
    · rw [Table.get_set_same, lowBits_toNat]
    · exact Table.get_set_other _ _ (Fin.ne_of_val_ne hj)
  case ignored =>
    rw [transact_wreg_freq h]
    exact whenReady_ended (s := { s with pending := rest }) hs _
  case above => exact transact_wreg_above_cmd h v _

end Sys2Proof.Machine
end

section
/-! PROOF. The faults (R231 to R236): their codes, what entering one records and releases, and the two that are taken
before a command does anything: E_SEQ and E_ILLEGAL_CMD. -/

namespace Sys2Proof.Machine

/-- Settles O14: both streams are open, so `raise` enters the fault. -/
theorem faultEntryRecordsAndReleases : Obligations.FaultEntryRecordsAndReleases :=
  fun f info _ hi ho => raise_entered hi ho f info

/-! ### The codes -/

/-- The ten faults in the order of the table of R231. -/
def HcFault.table : List HcFault :=
  [.treeEof, .symNotFound, .truncated, .magicMismatch, .treeSym, .treeDup, .treeNoEos, .treeOvf, .seq, .illegalCmd]

/-- A fault's code counts its row in the table from 1 (R231). -/
theorem HcFault.table_at_code (f : HcFault) : HcFault.table[f.code.toNat - 1]? = some f := by
  cases f <;> rfl

theorem HcFault.code_injective {f g : HcFault} (h : f.code = g.code) : f = g := by
  have hrow := f.table_at_code
  rw [h, g.table_at_code] at hrow
  exact (Option.some.inj hrow).symm

/-- Settles O15: the codes are read off the table, and a code tells the row of its fault. -/
theorem faultCodesAreTheTable : Obligations.FaultCodesAreTheTable :=
  ⟨rfl, fun _ _ => HcFault.code_injective⟩

/-! ### Before a command does anything -/

/-- Settles O16: the event is taken off the port, and the running session enters the fault. -/
theorem illegalWordTakesIllegalCmd : Obligations.IllegalWordTakesIllegalCmd := by
  rintro s w rest e ⟨hs, hi, ho⟩ hp hd
  have hillegal : ∀ i, decode w ≠ .ok i := not_exists.mp ((exists_decode_error_iff w).mp ⟨e, hd⟩)
  rw [step_of_pending hp, transact_wreg_cmd, writeCmd_illegal (s := { s with pending := rest }) hs hillegal]
  exact raise_entered (s := { s with pending := rest }) hi ho .illegalCmd w

/-- The sequencing fault of BUILD and DESER (R234). -/
theorem needNoTree_entered {s : State} (hl : s.Live) (ht : s.tree ≠ none) (w : Word)
    (k : Host.Outcome State Fault Refusal) :
    ∃ t, whenReady s (needNoTree w s k) = .next t ∧ FaultEntered .seq w s t := by
  obtain ⟨t, hnext, hentered, -, -⟩ := needNoTree_faults hl ht w k
  exact ⟨t, hnext, hentered⟩

/-- The sequencing fault of ENCODE (R234). -/
theorem needCode_entered {s : State} (hl : s.Live) (hc : s.code = none) (w : Word)
    (k : Table (Option Bits) 257 → Host.Outcome State Fault Refusal) :
    ∃ t, whenReady s (needCode w s k) = .next t ∧ FaultEntered .seq w s t := by
  obtain ⟨hs, hi, ho⟩ := hl
  rw [whenReady_ready hs, needCode_of_none hc]
  exact raise_entered hi ho .seq w

/-- Settles O17: each command stands behind one of the three sequencing checks, with its own word. -/
theorem sequencingFaultsRecordTheWord : Obligations.SequencingFaultsRecordTheWord := by
  refine fun s hl => ⟨fun ht => ?build, fun ht => ?deser, fun ht => ?ser, fun ht sym => ?lookup, fun ht => ?codegen,
    fun hc => ?encode, fun ht => ?decode⟩
  case build => exact needNoTree_entered hl ht (encode .build) _
  case deser => exact needNoTree_entered hl ht (encode .deser) _
  case ser => exact needTree_entered hl ht (encode .ser) _
  case lookup =>
    rw [← encode_lookup]
    exact needTree_entered hl ht (encode (.lookup sym)) _
  case codegen => exact needTree_entered hl ht (encode .codegen) _
  case encode => exact needCode_entered hl hc (encode .encode) _
  case decode => exact needTree_entered hl ht (encode .decode) _

end Sys2Proof.Machine
end

section
/-! PROOF. What the port does to a session that has ended: a reset starts the next one (R241), and every other event is
ignored or read (R240); with no event the core waits. -/

namespace Sys2Proof.Machine

/-- Settles O6: there is no event to run. -/
theorem stepWaitsForTheHost : Obligations.StepWaitsForTheHost := by
  intro s hp
  rw [step, hp]

/-- A write starts a new session when it puts the word of RESET into CMD (R241). -/
theorem HostEvent.isReset_wreg_iff (n : RegNum) (v : Word) :
    (HostEvent.wreg n v).isReset = true ↔ n = 256 ∧ decode v = .ok .reset := by
  simp [HostEvent.isReset, cmdReg]

/-- Both kinds of reset event go back to the reset state (R218, R260). -/
theorem transact_of_isReset {e : HostEvent} (he : e.isReset = true) (s : State) : transact e s = resetCore s := by
  cases e with
  | rst => rfl
  | rreg n => cases he
  | wreg n v =>
    obtain ⟨rfl, hd⟩ := (HostEvent.isReset_wreg_iff n v).mp he
    exact transact_command hd s

/-- After the session has ended every write is ignored, to CMD, to FREQ and above, RESET at CMD aside (R240). -/
theorem transact_wreg_ended {n : RegNum} {v : Word} {s : State} (hs : s.session ≠ .ready)
    (he : (HostEvent.wreg n v).isReset = false) : transact (.wreg n v) s = .next s := by
  rcases lt_trichotomy n.toNat 256 with hfreq | hcmd | habove
  · rw [transact_wreg_freq hfreq]
    exact whenReady_ended hs _
  · obtain rfl : n = 256 := BitVec.eq_of_toNat_eq hcmd
    have hw : decode v ≠ .ok .reset := fun hd =>
      Bool.false_ne_true (he.symm.trans ((HostEvent.isReset_wreg_iff 256 v).mpr ⟨rfl, hd⟩))
    rw [transact_wreg_cmd]
    exact writeCmd_ended hs hw
  · exact transact_wreg_above_cmd habove v s

/-- Settles O10: a write is ignored, and a read only adds its reply. -/
theorem endedSessionIgnoresAllButReset : Obligations.EndedSessionIgnoresAllButReset := by
  intro s e rest hs hp he
  rw [step_of_pending hp]
  cases e with
  | rst => cases he
  | rreg n => rfl
  | wreg n v => exact transact_wreg_ended (s := { s with pending := rest }) hs he

/-- Settles O11: a reset event answers a fresh session, and any other event leaves the fault record as it is. -/
theorem resetLeavesAnEndedSession : Obligations.ResetLeavesAnEndedSession := by
  refine fun s e rest hs hp => ⟨fun he => ?reset, fun he => ?other⟩
  case reset =>
    have h := freshSession_atReset { s with pending := rest }
    refine ⟨_, ?_, h.session, h.err, h.errInfo, h.tree, h.code, h.freq, h.inp, h.out⟩
    rw [step_of_pending hp, transact_of_isReset he]
    exact resetCore_ended hs
  case other => exact ⟨_, endedSessionIgnoresAllButReset s e rest hs hp he, rfl, rfl, rfl⟩

end Sys2Proof.Machine
end

section
/-! PROOF. DECODEFILE on an artefact with anything after it: OUT holds the decoded bytes without padding (R265). -/

namespace Sys2Proof.Machine

/-- Settles O59: the run of the four commands writes whole bytes, so the file of the released OUT is these bytes. -/
theorem decodeRunRestoresTheInput : Obligations.DecodeRunRestoresTheInput := by
  intro s t bytes eosCode pad hl ht herr hout hv hbytes heos hin
  have hbits : s.out.bits ++ fileBits bytes = fileBits bytes := by rw [hout, List.nil_append]
  exact ⟨_, runCommands_decodeFile hl ht hv hbytes heos hin, ⟨rfl, herr⟩, rfl, hbits,
    (OutStream.close_released _ _).file_of_bytes hbits⟩

end Sys2Proof.Machine
end
